-- ==== Sys2Proof/Word.lean ====
section
/-! DEFINITION. The two widths of TOY16: the byte and the 16-bit word (spec/00_scope.md R5, R8). -/

namespace Sys2Proof

/-- A `u8`: an opcode, a register-id byte, a byte of memory (R8). -/
abbrev Byte := BitVec 8

/-- A `u16`: a register, the frame-size counter, an address. Its `+` and `-` are the spec's
`+16` and `-16`, modulo 65536 (R8). -/
abbrev Word := BitVec 16

end Sys2Proof
end

