-- ==== Sys2Proof/Config.lean ====
section
/-! DEFINITION. The one implementation parameter of TOY16, the memory capacity `L` (`MEM_SIZE`):
its default and its range (spec/00_scope.md R6). A machine's own capacity is the field `memSize`
of its State (log entry 1). -/

namespace Sys2Proof

/-- The source's "default capacity = 65535 bytes" (R6; 90_conflicts.md C6). -/
def Config.defaultMemSize : Nat := 65535

/-- The least capacity: it holds the first stack word at `L - 2` (R6). -/
def Config.minMemSize : Nat := 2

/-- The address space, and the greatest capacity (R5, R6). -/
def Config.maxMemSize : Nat := 65536

end Sys2Proof
end

