-- ==== Sys2Proof/Syntax.lean ====
section
/-! DEFINITION. The registers, the operation selectors and the instructions of TOY16, one
constructor of `Instr` per row of spec/opcode_table.json. An operand is held decoded: a register
operand is one of the 12 registers, so an instruction with an illegal register id cannot be
written (such an id never gets past `fetchReg`, spec/10_state.md R25). -/

namespace Sys2Proof

/-- The 12 registers of the register file, in id order (spec/10_state.md R21, R22). -/
inductive Reg where
  | ip | sp | fp | acc | r1 | r2 | r3 | r4 | r5 | r6 | r7 | r8
  deriving DecidableEq, Repr

/-- The 13 variants an opcode byte selects (spec/30_encoding.md R75). -/
inductive Opcode where
  | moveLitToReg | moveRegToReg | moveRegToMem | moveMemToReg | addRegReg | jmpNotEq
  | pushLit | pushReg | pop | callLit | callReg | ret | hlt
  deriving DecidableEq, Repr

/-- The 13 instructions with their operands in fetch order (spec/30_encoding.md R75). -/
inductive Instr where
  | moveLitToReg (lit : Word) (dest : Reg)
  | moveRegToReg (src dest : Reg)
  | moveRegToMem (src : Reg) (addr : Word)
  | moveMemToReg (addr : Word) (dest : Reg)
  | addRegReg (reg1 reg2 : Reg)
  | jmpNotEq (lit target : Word)
  | pushLit (lit : Word)
  | pushReg (reg : Reg)
  | pop (reg : Reg)
  | callLit (target : Word)
  | callReg (reg : Reg)
  | ret
  | hlt
  deriving DecidableEq, Repr

/-- The variant an instruction belongs to. -/
def Instr.opcode : Instr → Opcode
  | .moveLitToReg _ _ => .moveLitToReg
  | .moveRegToReg _ _ => .moveRegToReg
  | .moveRegToMem _ _ => .moveRegToMem
  | .moveMemToReg _ _ => .moveMemToReg
  | .addRegReg _ _ => .addRegReg
  | .jmpNotEq _ _ => .jmpNotEq
  | .pushLit _ => .pushLit
  | .pushReg _ => .pushReg
  | .pop _ => .pop
  | .callLit _ => .callLit
  | .callReg _ => .callReg
  | .ret => .ret
  | .hlt => .hlt

/-- The register a register-id operand of the instruction names as its destination: the four
instructions of spec/10_state.md R24 that write "whatever register their register-id operand
names". AddRegReg's ACC is not one of these. -/
def Instr.dest? : Instr → Option Reg
  | .moveLitToReg _ d => some d
  | .moveRegToReg _ d => some d
  | .moveRegToMem _ _ => none
  | .moveMemToReg _ d => some d
  | .addRegReg _ _ => none
  | .jmpNotEq _ _ => none
  | .pushLit _ => none
  | .pushReg _ => none
  | .pop r => some r
  | .callLit _ => none
  | .callReg _ => none
  | .ret => none
  | .hlt => none

end Sys2Proof
end

