-- ==== Sys2Proof/Machine/State.lean ====
section
/-! DEFINITION. The whole state of a TOY16 machine as plain data (spec/10_state.md R20), its fault
kinds, and the machine right after construction (spec/70_reset_and_hazards.md R230). -/

namespace Sys2Proof.Machine

/-- The register file: 12 registers of 16 bits (spec/10_state.md R21). -/
structure RegFile where
  ip : Word
  sp : Word
  fp : Word
  acc : Word
  r1 : Word
  r2 : Word
  r3 : Word
  r4 : Word
  r5 : Word
  r6 : Word
  r7 : Word
  r8 : Word
  deriving DecidableEq, Repr

/-- The fault kinds with the information each records (spec/60_exceptions.md R200). A fault ends
the step and is returned to the driver (R204). -/
inductive Fault where
  /-- The byte fetched as an opcode is none of the 13 opcodes. Raised by the opcode decode of a
  step (R201). Safe: the spec names this fault. -/
  | invalidInstruction (op : Byte)
  /-- A byte fetched as a register id is above 0x0B. Raised by `fetchReg` (R202). Safe: the spec
  names this fault. -/
  | invalidRegister (b : Byte)
  /-- The first out-of-range byte address of an access. Raised by every memory access (R203).
  Safe: the spec names this fault. -/
  | boundsFault (addr : Word)
  /-- A decoded variant without a handler (R98). Defined by the spec and raised by nobody, since
  every variant has its handler (D15). Safe. -/
  | unimplemented (op : Byte)
  deriving DecidableEq, Repr

/-- What the model turns away. No instruction and no step of a machine answers any of these. -/
inductive Refusal where
  /-- An instruction without a meaning. No arm of `exec` answers it: all 13 are modelled. Safe. -/
  | notModelled (mnemonic : String)
  /-- Construction with a capacity outside 2..65536. Raised by `State.construct`, as
  spec/93_implementation_defined.md item 8 asks. Safe. -/
  | illegalCapacity (memSize : Nat)
  /-- A host write to a byte address at or above the capacity, which the host may not make
  (spec/70_reset_and_hazards.md R234 item 2). Raised by `hostWriteByte`. Safe. -/
  | hostWriteOutOfRange (addr : Nat)
  deriving DecidableEq, Repr

/-- The run status (spec/10_state.md R38). -/
inductive Status where
  | running
  | halted
  | faulted (f : Fault)
  deriving DecidableEq, Repr

/-- The memory array as a sparse list of its non-zero bytes, addresses rising (`Memory.wf` in
Machine/Memory.lean). -/
abbrev Memory := List Host.Cell

/-- What an address of the memory array that the list does not hold reads as: "memory zeroed"
(spec/10_state.md R39). -/
def Memory.unlisted : Byte := 0#8

/-- The state of one machine: the four pieces of spec/10_state.md R20, and beside them the
capacity `L`, the parameter fixed at construction (spec/00_scope.md R6; log entry 1). -/
structure State where
  regs : RegFile
  fsc : Word
  status : Status
  mem : Memory
  memSize : Nat
  deriving DecidableEq, Repr

/-- The machine right after construction with capacity `memSize`
(spec/70_reset_and_hazards.md R230). -/
def State.constructed (memSize : Nat) : State where
  regs :=
    { ip := 0#16, sp := BitVec.ofNat 16 (memSize - 2), fp := BitVec.ofNat 16 (memSize - 2),
      acc := 0#16, r1 := 0#16, r2 := 0#16, r3 := 0#16, r4 := 0#16, r5 := 0#16, r6 := 0#16,
      r7 := 0#16, r8 := 0#16 }
  fsc := 0#16
  status := .running
  mem := []
  memSize := memSize

/-- The machine right after reset: construction with the default capacity 65535 (R6, R230). -/
def State.reset : State := State.constructed Config.defaultMemSize

end Sys2Proof.Machine
end

