-- ==== Sys2Proof/Machine/Alu.lean ====
section
/-! DEFINITION. The alu_unit: its two functions (spec/42_alu.md R120). TOY16 has no flags
(spec/10_state.md R36), so no flag is computed anywhere. -/

namespace Sys2Proof.Machine

/-- `add16`: the sum modulo 65536; the carry is discarded (R120). -/
def add16 (a b : Word) : Word := a + b

/-- `eq16`: 16-bit equality (R120). -/
def eq16 (a b : Word) : Bool := a == b

end Sys2Proof.Machine
end

