-- ==== Sys2Proof/WellFormed.lean ====
section
/-! DEFINITION. What is well formed before it reaches the machine: a register-id byte, an opcode
byte, the bytes of one whole instruction, and a memory capacity. An `Instr` is well formed by its
type (Syntax.lean), so the checks here are on raw data; they are written from the spec's lists and
tables of legal values, not from the decoder, and the decoder is held against them. -/

namespace Sys2Proof

/-- The legal register ids are `0x00..0x0B` (spec/30_encoding.md R74, R77). -/
def legalRegisterId (b : Byte) : Bool := b.toNat ≤ 0x0B

/-- An opcode byte is legal unless it is in one of the four illegal ranges of
spec/30_encoding.md R76: 0x00 to 0x0F, 0x16, 0x1A to 0x5D, 0x61 to 0xFE. -/
def legalOpcode (b : Byte) : Bool :=
  !(b.toNat ≤ 0x0F || b.toNat == 0x16 || (0x1A ≤ b.toNat && b.toNat ≤ 0x5D)
    || (0x61 ≤ b.toNat && b.toNat ≤ 0xFE))

/-- The length of the instruction an opcode byte starts (spec/30_encoding.md R72), and the byte
positions of its register-id fields, the opcode being byte 0 (R71). -/
def encodingShape (op : Byte) : Option (Nat × List Nat) :=
  match op.toNat with
  | 0x10 => some (4, [3])
  | 0x11 => some (3, [1, 2])
  | 0x12 => some (4, [1])
  | 0x13 => some (4, [3])
  | 0x14 => some (3, [1, 2])
  | 0x15 => some (5, [])
  | 0x17 => some (3, [])
  | 0x18 => some (2, [1])
  | 0x19 => some (2, [1])
  | 0x5E => some (3, [])
  | 0x5F => some (2, [1])
  | 0x60 => some (1, [])
  | 0xFF => some (1, [])
  | _ => none

/-- The bytes of exactly one legal instruction: a legal opcode, the length it fixes, and legal ids
in its register fields (spec/30_encoding.md R72, R76, R77, R80). -/
def wellFormedEncoding : List Byte → Bool
  | [] => false
  | op :: operands =>
    match encodingShape op with
    | none => false
    | some (len, regs) =>
      (op :: operands).length == len
        && regs.all fun k => legalRegisterId ((op :: operands).getD k 0xFF#8)

/-- The capacities a machine may be constructed with: `2 <= L <= 65536` (spec/00_scope.md R6). -/
def legalCapacity (L : Nat) : Bool :=
  Config.minMemSize ≤ L && L ≤ Config.maxMemSize

end Sys2Proof
end

