-- ==== Sys2Proof/Decode.lean ====
section
/-! DEFINITION. The decoder and the encoder (spec/30_encoding.md, spec/40_fetch_decode.md).

One decoder serves two readers. `decodeFrom` follows the order of R90 and R95 (opcode byte,
decode, then each operand field in the table's order) over any `ByteSource`: `decode` runs it on a
list of bytes, and Machine/Operands.lean runs it on the machine's own fetch operations. -/

namespace Sys2Proof

/-- The big-endian word of a high and a low byte (spec/20_memory.md R55; 30_encoding.md R73). -/
def wordOfBytes (hi lo : Byte) : Word := hi ++ lo

/-- `v[15:8]` (spec/00_scope.md R8). -/
def hiByte (v : Word) : Byte := v.extractLsb' 8 8

/-- `v[7:0]` (spec/00_scope.md R8). -/
def loByte (v : Word) : Byte := v.extractLsb' 0 8

/-- The id of each register (spec/30_encoding.md R74). -/
def regId : Reg → Byte
  | .ip => 0x00#8
  | .sp => 0x01#8
  | .fp => 0x02#8
  | .acc => 0x03#8
  | .r1 => 0x04#8
  | .r2 => 0x05#8
  | .r3 => 0x06#8
  | .r4 => 0x07#8
  | .r5 => 0x08#8
  | .r6 => 0x09#8
  | .r7 => 0x0A#8
  | .r8 => 0x0B#8

/-- The register a byte decodes to; `none` for 0x0C to 0xFF (spec/30_encoding.md R74, R77). -/
def regOfId (b : Byte) : Option Reg :=
  match b.toNat with
  | 0x00 => some .ip
  | 0x01 => some .sp
  | 0x02 => some .fp
  | 0x03 => some .acc
  | 0x04 => some .r1
  | 0x05 => some .r2
  | 0x06 => some .r3
  | 0x07 => some .r4
  | 0x08 => some .r5
  | 0x09 => some .r6
  | 0x0A => some .r7
  | 0x0B => some .r8
  | _ => none

/-- The opcode byte of each variant (spec/30_encoding.md R75). -/
def opcodeByte : Opcode → Byte
  | .moveLitToReg => 0x10#8
  | .moveRegToReg => 0x11#8
  | .moveRegToMem => 0x12#8
  | .moveMemToReg => 0x13#8
  | .addRegReg => 0x14#8
  | .jmpNotEq => 0x15#8
  | .pushLit => 0x17#8
  | .pushReg => 0x18#8
  | .pop => 0x19#8
  | .callLit => 0x5E#8
  | .callReg => 0x5F#8
  | .ret => 0x60#8
  | .hlt => 0xFF#8

/-- `decode(op)` of spec/40_fetch_decode.md R94, a function of the opcode byte alone; `none` is
InvalidInstruction. -/
def opcodeOfByte (b : Byte) : Option Opcode :=
  match b.toNat with
  | 0x10 => some .moveLitToReg
  | 0x11 => some .moveRegToReg
  | 0x12 => some .moveRegToMem
  | 0x13 => some .moveMemToReg
  | 0x14 => some .addRegReg
  | 0x15 => some .jmpNotEq
  | 0x17 => some .pushLit
  | 0x18 => some .pushReg
  | 0x19 => some .pop
  | 0x5E => some .callLit
  | 0x5F => some .callReg
  | 0x60 => some .ret
  | 0xFF => some .hlt
  | _ => none

/-- Why a list of bytes does not begin with an instruction. -/
inductive DecodeError where
  /-- The bytes end inside the instruction. -/
  | truncated
  /-- The opcode byte is none of the 13 (spec/30_encoding.md R76). -/
  | invalidInstruction (op : Byte)
  /-- A register-id byte is above 0x0B (spec/30_encoding.md R77). -/
  | invalidRegister (b : Byte)
  deriving DecidableEq, Repr

/-- Where the decoder gets its bytes: a one-byte and a two-byte fetch, each with its own failure,
and the errors by which a bad opcode byte and a bad register-id byte are reported. -/
structure ByteSource (σ ε : Type) where
  fetch8 : σ → Except ε (Byte × σ)
  fetch16 : σ → Except ε (Word × σ)
  invalidInstruction : Byte → ε
  invalidRegister : Byte → ε

/-- `fetchReg()` of spec/40_fetch_decode.md R93: one byte, which must be a register id. -/
def fetchReg {σ ε : Type} (src : ByteSource σ ε) (s : σ) : Except ε (Reg × σ) := do
  let (b, s) ← src.fetch8 s
  match regOfId b with
  | some r => .ok (r, s)
  | none => .error (src.invalidRegister b)

/-- The operand fields of each variant, in the table's order (spec/30_encoding.md R75;
40_fetch_decode.md R95 item 1). -/
def fetchOperands {σ ε : Type} (src : ByteSource σ ε) (v : Opcode) (s : σ) :
    Except ε (Instr × σ) :=
  match v with
  | .moveLitToReg => do
    let (lit, s) ← src.fetch16 s
    let (dest, s) ← fetchReg src s
    .ok (.moveLitToReg lit dest, s)
  | .moveRegToReg => do
    let (from1, s) ← fetchReg src s
    let (dest, s) ← fetchReg src s
    .ok (.moveRegToReg from1 dest, s)
  | .moveRegToMem => do
    let (from1, s) ← fetchReg src s
    let (addr, s) ← src.fetch16 s
    .ok (.moveRegToMem from1 addr, s)
  | .moveMemToReg => do
    let (addr, s) ← src.fetch16 s
    let (dest, s) ← fetchReg src s
    .ok (.moveMemToReg addr dest, s)
  | .addRegReg => do
    let (reg1, s) ← fetchReg src s
    let (reg2, s) ← fetchReg src s
    .ok (.addRegReg reg1 reg2, s)
  | .jmpNotEq => do
    let (lit, s) ← src.fetch16 s
    let (target, s) ← src.fetch16 s
    .ok (.jmpNotEq lit target, s)
  | .pushLit => do
    let (lit, s) ← src.fetch16 s
    .ok (.pushLit lit, s)
  | .pushReg => do
    let (reg, s) ← fetchReg src s
    .ok (.pushReg reg, s)
  | .pop => do
    let (reg, s) ← fetchReg src s
    .ok (.pop reg, s)
  | .callLit => do
    let (target, s) ← src.fetch16 s
    .ok (.callLit target, s)
  | .callReg => do
    let (reg, s) ← fetchReg src s
    .ok (.callReg reg, s)
  | .ret => .ok (.ret, s)
  | .hlt => .ok (.hlt, s)

/-- Opcode fetch, decode, operand fetches, in the order of spec/40_fetch_decode.md R90 and R95. -/
def decodeFrom {σ ε : Type} (src : ByteSource σ ε) (s : σ) : Except ε (Instr × σ) := do
  let (op, s) ← src.fetch8 s
  match opcodeOfByte op with
  | none => .error (src.invalidInstruction op)
  | some v => fetchOperands src v s

/-- One byte off the front of a list. -/
def listFetch8 : List Byte → Except DecodeError (Byte × List Byte)
  | [] => .error .truncated
  | b :: bs => .ok (b, bs)

/-- One big-endian word off the front of a list. -/
def listFetch16 : List Byte → Except DecodeError (Word × List Byte)
  | hi :: lo :: bs => .ok (wordOfBytes hi lo, bs)
  | _ => .error .truncated

/-- A list of bytes as the decoder's source. -/
def listSource : ByteSource (List Byte) DecodeError where
  fetch8 := listFetch8
  fetch16 := listFetch16
  invalidInstruction := .invalidInstruction
  invalidRegister := .invalidRegister

/-- The decoder: the instruction at the front of the bytes and the bytes after it, or why there is
none. -/
def decode (bytes : List Byte) : Except DecodeError (Instr × List Byte) :=
  decodeFrom listSource bytes

/-- A 16-bit field, high byte first (spec/30_encoding.md R70). -/
def encodeWord (v : Word) : List Byte := [hiByte v, loByte v]

/-- The bytes of an instruction, in address order, by the seven formats of
spec/30_encoding.md R71. -/
def encode : Instr → List Byte
  | .moveLitToReg lit dest => opcodeByte .moveLitToReg :: encodeWord lit ++ [regId dest]
  | .moveRegToReg src dest => [opcodeByte .moveRegToReg, regId src, regId dest]
  | .moveRegToMem src addr => opcodeByte .moveRegToMem :: regId src :: encodeWord addr
  | .moveMemToReg addr dest => opcodeByte .moveMemToReg :: encodeWord addr ++ [regId dest]
  | .addRegReg reg1 reg2 => [opcodeByte .addRegReg, regId reg1, regId reg2]
  | .jmpNotEq lit target => opcodeByte .jmpNotEq :: encodeWord lit ++ encodeWord target
  | .pushLit lit => opcodeByte .pushLit :: encodeWord lit
  | .pushReg reg => [opcodeByte .pushReg, regId reg]
  | .pop reg => [opcodeByte .pop, regId reg]
  | .callLit target => opcodeByte .callLit :: encodeWord target
  | .callReg reg => [opcodeByte .callReg, regId reg]
  | .ret => [opcodeByte .ret]
  | .hlt => [opcodeByte .hlt]

/-- The length in bytes an opcode fixes (spec/30_encoding.md R72). -/
def opcodeLength : Opcode → Nat
  | .moveLitToReg => 4
  | .moveRegToReg => 3
  | .moveRegToMem => 4
  | .moveMemToReg => 4
  | .addRegReg => 3
  | .jmpNotEq => 5
  | .pushLit => 3
  | .pushReg => 2
  | .pop => 2
  | .callLit => 3
  | .callReg => 2
  | .ret => 1
  | .hlt => 1

/-- The length in bytes of an instruction, that of its opcode (spec/30_encoding.md R72). -/
def instrLength (i : Instr) : Nat := opcodeLength i.opcode

/-- The longest instruction, in bytes (spec/30_encoding.md R70). -/
def maxInstrBytes : Nat := 5

/-- The bytes of a table word: byte `k` is bits `8k+7..8k` of `w`, every bit above `nbits` is 0,
and there are as many bytes as the longest instruction has. -/
def tableWordBytes (nbits w : Nat) : List Byte :=
  (List.range maxInstrBytes).map fun k => BitVec.ofNat 8 ((w % 2 ^ nbits) >>> (8 * k))

/-- The instruction the decoder reads from a table word. -/
def decodeTableWord (nbits w : Nat) : Option Instr :=
  match decode (tableWordBytes nbits w) with
  | .ok (i, _) => some i
  | .error _ => none

end Sys2Proof
end

