-- ==== Sys2Proof/Machine/Memory.lean ====
section
/-! DEFINITION. The memory array `M` as canonical sparse data: reading and writing one byte
(spec/10_state.md R39). Bounds are checked in Machine/Ops.lean. -/

namespace Sys2Proof.Machine

/-- The byte `M[a]`. -/
def Memory.read : Memory → Nat → Byte
  | [], _ => Memory.unlisted
  | (a', b) :: m, a => if a' = a then b else Memory.read m a

/-- The memory without any cell at `a`. -/
def Memory.dropCell (m : Memory) (a : Nat) : Memory := m.filter fun c => c.1 != a

/-- The memory with the cell `(a, b)` put before the first greater address. -/
def Memory.putCell : Memory → Nat → Byte → Memory
  | [], a, b => [(a, b)]
  | c :: m, a, b => if a < c.1 then (a, b) :: c :: m else c :: Memory.putCell m a b

/-- `M[a] <- b`, in canonical form: a byte that an unlisted address reads as anyway is not
listed. -/
def Memory.write (m : Memory) (a : Nat) (b : Byte) : Memory :=
  if b = Memory.unlisted then m.dropCell a else (m.dropCell a).putCell a b

/-- The canonical form: addresses strictly rising, and no cell that reads as an unlisted one. -/
abbrev Memory.wf (m : Memory) : Prop :=
  m.Pairwise (fun c d => c.1 < d.1) ∧ ∀ c ∈ m, c.2 ≠ Memory.unlisted

/-- Every listed address is one of the `memSize` bytes of the array. -/
abbrev Memory.within (memSize : Nat) (m : Memory) : Prop := ∀ c ∈ m, c.1 < memSize

/-- A memory array of `memSize` bytes with the given bytes written into a zeroed one, in list
order; a byte outside the array is left out. -/
def Memory.ofCells (memSize : Nat) (cells : List Host.Cell) : Memory :=
  cells.foldl (fun m c => if c.1 < memSize then Memory.write m c.1 c.2 else m) []

end Sys2Proof.Machine
end

