-- ==== Sys2Proof/Machine/Ops.lean ====
section
/-! DEFINITION. The named operations of the sub-blocks (spec/10_state.md R40): the register file,
the bounds-checked memory accesses, IP and its fetches, push and pop, state-save and
state-restore, and what a fault does to the machine. An operation that may fault answers
`Except Fault`; the first fault ends it (spec/60_exceptions.md R204, R205). -/

namespace Sys2Proof.Machine

/-! ## register_file (R25) -/

/-- The register with the given name. -/
def RegFile.get (f : RegFile) : Reg → Word
  | .ip => f.ip
  | .sp => f.sp
  | .fp => f.fp
  | .acc => f.acc
  | .r1 => f.r1
  | .r2 => f.r2
  | .r3 => f.r3
  | .r4 => f.r4
  | .r5 => f.r5
  | .r6 => f.r6
  | .r7 => f.r7
  | .r8 => f.r8

/-- The register file with one register set. -/
def RegFile.set (f : RegFile) (r : Reg) (v : Word) : RegFile :=
  match r with
  | .ip => { f with ip := v }
  | .sp => { f with sp := v }
  | .fp => { f with fp := v }
  | .acc => { f with acc := v }
  | .r1 => { f with r1 := v }
  | .r2 => { f with r2 := v }
  | .r3 => { f with r3 := v }
  | .r4 => { f with r4 := v }
  | .r5 => { f with r5 := v }
  | .r6 => { f with r6 := v }
  | .r7 => { f with r7 := v }
  | .r8 => { f with r8 := v }

/-- `x[r]`: no register is hardwired and a read never faults (spec/10_state.md R23, R25, R26). -/
def State.readReg (s : State) (r : Reg) : Word := s.regs.get r

/-- `x[r] <- v`: no register is read-only (spec/10_state.md R23, R25). -/
def State.writeReg (s : State) (r : Reg) (v : Word) : State := { s with regs := s.regs.set r v }

/-- The state with the frame-size counter set (spec/10_state.md R34). -/
def State.withFsc (s : State) (v : Word) : State := { s with fsc := v }

/-- The state with the memory array replaced. -/
def State.withMem (s : State) (m : Memory) : State := { s with mem := m }

/-- The state with the run status set (spec/10_state.md R38). -/
def State.withStatus (s : State) (st : Status) : State := { s with status := st }

/-- The general registers in ascending order of id, R1 first (spec/10_state.md R22). -/
def generalRegs : List Reg := [.r1, .r2, .r3, .r4, .r5, .r6, .r7, .r8]

/-! ## memory array (spec/20_memory.md R51 to R55) -/

/-- The byte address is one of the `L` bytes of the memory array (R52). -/
def State.backed (s : State) (a : Word) : Bool := a.toNat < s.memSize

/-- Both bytes of the word at `a` are in the memory array, the second at `a +16 1` (R51, R52). -/
def State.backedWord (s : State) (a : Word) : Bool := s.backed a && s.backed (a + 1#16)

/-- The byte at `a`, with no bounds check. -/
def State.byteAt (s : State) (a : Word) : Byte := s.mem.read a.toNat

/-- The big-endian word at `a`, with no bounds check (R55). -/
def State.wordAt (s : State) (a : Word) : Word := wordOfBytes (s.byteAt a) (s.byteAt (a + 1#16))

/-- The state with the big-endian word at `a` replaced, with no bounds check (R54, R55). -/
def State.putWord (s : State) (a v : Word) : State :=
  s.withMem ((s.mem.write a.toNat (hiByte v)).write (a + 1#16).toNat (loByte v))

/-- The bytes listed stand in memory from `a` on, wrapping, every one of them backed. -/
def State.holdsBytes (s : State) : Word → List Byte → Bool
  | _, [] => true
  | a, b :: bs => s.backed a && s.byteAt a == b && s.holdsBytes (a + 1#16) bs

/-- `MemRead(a, 1)` (R53). -/
def memRead8 (a : Word) (s : State) : Except Fault Byte :=
  if s.backed a then .ok (s.byteAt a) else .error (.boundsFault a)

/-- `MemRead(a, 2)`: the low address is checked first (R53). -/
def memRead16 (a : Word) (s : State) : Except Fault Word :=
  if s.backed a then
    if s.backed (a + 1#16) then .ok (s.wordAt a) else .error (.boundsFault (a + 1#16))
  else .error (.boundsFault a)

/-- `MemWrite(a, 2, v)`: both addresses are checked before either byte is written (R54). -/
def memWrite16 (a v : Word) (s : State) : Except Fault State :=
  if s.backed a then
    if s.backed (a + 1#16) then .ok (s.putWord a v) else .error (.boundsFault (a + 1#16))
  else .error (.boundsFault a)

/-- The state with bytes stored from address `a` on, wrapping (R51); a byte whose address has no
memory is left out. Not an operation of the machine: it stands for the host's loading of an
instruction (spec/70_reset_and_hazards.md R234 item 2). -/
def placeBytes : List Byte → Word → State → State
  | [], _, s => s
  | b :: bs, a, s =>
    placeBytes bs (a + 1#16) (if s.backed a then s.withMem (s.mem.write a.toNat b) else s)

/-! ## instruction_pointer_unit (spec/10_state.md R29; spec/40_fetch_decode.md R91, R92) -/

/-- `advance(n)`: IP moves on by `n` modulo 65536; the old IP is returned (R29). -/
def advance (n : Word) (s : State) : Word × State :=
  (s.readReg .ip, s.writeReg .ip (s.readReg .ip + n))

/-- `fetch8()` (R91). -/
def fetch8 (s : State) : Except Fault (Byte × State) := do
  let b ← memRead8 (s.readReg .ip) s
  .ok (b, (advance 1#16 s).2)

/-- `fetch16()` (R92). -/
def fetch16 (s : State) : Except Fault (Word × State) := do
  let v ← memRead16 (s.readReg .ip) s
  .ok (v, (advance 2#16 s).2)

/-! ## stack_pointer_logic (spec/44_stack.md R140, R141) -/

/-- `push(v)`: write at SP, then SP down by 2, then the counter up by 2 (R140). -/
def push (v : Word) (s : State) : Except Fault State := do
  let s ← memWrite16 (s.readReg .sp) v s
  let s := s.writeReg .sp (s.readReg .sp - 2#16)
  .ok (s.withFsc (s.fsc + 2#16))

/-- `pop()`: SP up by 2, the counter down by 2, then read the word now at SP (R141). -/
def pop (s : State) : Except Fault (Word × State) := do
  let s := s.writeReg .sp (s.readReg .sp + 2#16)
  let s := s.withFsc (s.fsc - 2#16)
  let v ← memRead16 (s.readReg .sp) s
  .ok (v, s)

/-- Push the listed words, the first one first (the sequence of R147). -/
def pushWords : List Word → State → Except Fault State
  | [], s => .ok s
  | v :: vs, s => do
    let s ← push v s
    pushWords vs s

/-- Pop `n` words; they are listed in the order popped (the sequence of R147). -/
def popWords : Nat → State → Except Fault (List Word × State)
  | 0, s => .ok ([], s)
  | n + 1, s => do
    let (v, s) ← pop s
    let (vs, s) ← popWords n s
    .ok (v :: vs, s)

/-! ## subroutine_call_return_frame_manager (spec/45_call_return.md R161, R162) -/

/-- Push the listed registers, the first one first. -/
def pushRegs : List Reg → State → Except Fault State
  | [], s => .ok s
  | r :: rs, s => do
    let s ← push (s.readReg r) s
    pushRegs rs s

/-- Pop into the listed registers, the first one first. -/
def popRegs : List Reg → State → Except Fault State
  | [], s => .ok s
  | r :: rs, s => do
    let (v, s) ← pop s
    popRegs rs (s.writeReg r v)

/-- Pop `n` words and drop their values; every one is read and may fault (R162 step 5, D14). -/
def discard : Nat → State → Except Fault State
  | 0, s => .ok s
  | n + 1, s => do
    let (_, s) ← pop s
    discard n s

/-- `saveState()`: the five steps of R161. The counter word of step 3 is computed before its own
push. -/
def saveState (s : State) : Except Fault State := do
  let s ← pushRegs generalRegs s
  let s ← push (s.readReg .ip) s
  let s ← push (s.fsc + 2#16) s
  let s := s.writeReg .fp (s.readReg .sp)
  .ok (s.withFsc 0#16)

/-- `restoreState()`: the six steps of R162. The pop of step 2 runs before the assignment to the
counter (R163), and step 6 uses the running counter. -/
def restoreState (s : State) : Except Fault State := do
  let boundary := s.readReg .fp
  let s := s.writeReg .sp boundary
  let (w, s) ← pop s
  let s := s.withFsc w
  let (ret, s) ← pop s
  let s := s.writeReg .ip ret
  let s ← popRegs generalRegs.reverse s
  let (n, s) ← pop s
  let s ← discard n.toNat s
  .ok (s.writeReg .fp (boundary + s.fsc))

/-! ## Faults (spec/60_exceptions.md R200, R204) -/

/-- The spec's numbering of the fault kinds (R200). -/
def Fault.code : Fault → Nat
  | .invalidInstruction _ => 1
  | .invalidRegister _ => 2
  | .boundsFault _ => 3
  | .unimplemented _ => 4

/-- The information a fault records, as a number (R200). -/
def Fault.info : Fault → Nat
  | .invalidInstruction op => op.toNat
  | .invalidRegister b => b.toNat
  | .boundsFault a => a.toNat
  | .unimplemented op => op.toNat

/-- Values for what a fault leaves unspecified: the registers, the counter and the memory bytes
(R204 item 2). A free value: whoever takes the fault supplies it and nothing constrains it. -/
structure Aftermath where
  regs : RegFile
  fsc : Word
  cells : List Host.Cell
  deriving DecidableEq, Repr

/-- What a fault does to the machine: the status becomes `Faulted(kind, info)`, and registers,
counter and memory are any values (R204). There is no trap entry: nothing is saved and IP goes
nowhere (R207). -/
def takeFault (f : Fault) (any : Aftermath) (s : State) : State :=
  { regs := any.regs
    fsc := any.fsc
    status := .faulted f
    mem := Memory.ofCells s.memSize any.cells
    memSize := s.memSize }

/-- An operation's answer as the outcome of the instruction: a fault goes to the driver as it is
(R204). -/
def outcome : Except Fault State → Host.Outcome State Fault Refusal
  | .ok s => .next s
  | .error f => .fault f

end Sys2Proof.Machine
end

