-- ==== Sys2Proof/Machine/Arithmetic.lean ====
section
/-! DEFINITION. AddRegReg (spec/42_alu.md). -/

namespace Sys2Proof.Machine

/-- AddRegReg: both registers are read, then ACC is written; no flag (R121). -/
def execAddRegReg (reg1 reg2 : Reg) (s : State) : Host.Outcome State Fault Refusal :=
  .next (s.writeReg .acc (add16 (s.readReg reg1) (s.readReg reg2)))

end Sys2Proof.Machine
end

