-- ==== Sys2Proof/Machine/Branch.lean ====
section
/-! DEFINITION. JmpNotEq (spec/43_branch.md). -/

namespace Sys2Proof.Machine

/-- JmpNotEq: IP becomes the target when the literal differs from ACC, and stays past both operands
otherwise; the target is not checked (R130). -/
def execJmpNotEq (lit target : Word) (s : State) : Host.Outcome State Fault Refusal :=
  .next (if eq16 lit (s.readReg .acc) then s else s.writeReg .ip target)

end Sys2Proof.Machine
end

