-- ==== Sys2Proof/Machine/Call.lean ====
section
/-! DEFINITION. CallLit, CallReg and Ret (spec/45_call_return.md). -/

namespace Sys2Proof.Machine

/-- CallLit: save state, then jump (R168). -/
def execCallLit (target : Word) (s : State) : Host.Outcome State Fault Refusal :=
  outcome do
    let s ← saveState s
    .ok (s.writeReg .ip target)

/-- CallReg: the target is read before state-save (R169). -/
def execCallReg (reg : Reg) (s : State) : Host.Outcome State Fault Refusal :=
  outcome do
    let target := s.readReg reg
    let s ← saveState s
    .ok (s.writeReg .ip target)

/-- Ret: restore state (R170). -/
def execRet (s : State) : Host.Outcome State Fault Refusal :=
  outcome (restoreState s)

end Sys2Proof.Machine
end

