-- ==== Sys2Proof/Machine/DataMovement.lean ====
section
/-! DEFINITION. The four Move instructions (spec/41_data_movement.md). Each meaning runs on the
state after the instruction's operand fetches, IP being past them (spec/40_fetch_decode.md R95). -/

namespace Sys2Proof.Machine

/-- MoveLitToReg (R110). -/
def execMoveLitToReg (lit : Word) (dest : Reg) (s : State) : Host.Outcome State Fault Refusal :=
  .next (s.writeReg dest lit)

/-- MoveRegToReg (R111). -/
def execMoveRegToReg (src dest : Reg) (s : State) : Host.Outcome State Fault Refusal :=
  .next (s.writeReg dest (s.readReg src))

/-- MoveRegToMem (R112). -/
def execMoveRegToMem (src : Reg) (addr : Word) (s : State) : Host.Outcome State Fault Refusal :=
  outcome (memWrite16 addr (s.readReg src) s)

/-- MoveMemToReg (R113). -/
def execMoveMemToReg (addr : Word) (dest : Reg) (s : State) : Host.Outcome State Fault Refusal :=
  outcome do
    let v ← memRead16 addr s
    .ok (s.writeReg dest v)

end Sys2Proof.Machine
end

