-- ==== Sys2Proof/Machine/Halt.lean ====
section
/-! DEFINITION. Hlt (spec/46_halt.md). -/

namespace Sys2Proof.Machine

/-- Hlt: the status becomes Halted and nothing else changes; IP is already past the Hlt (R190). -/
def execHlt (s : State) : Host.Outcome State Fault Refusal :=
  .next (s.withStatus .halted)

end Sys2Proof.Machine
end

