-- ==== Sys2Proof/Machine/Stack.lean ====
section
/-! DEFINITION. PushLit, PushReg and Pop (spec/44_stack.md). -/

namespace Sys2Proof.Machine

/-- PushLit (R144). -/
def execPushLit (lit : Word) (s : State) : Host.Outcome State Fault Refusal :=
  outcome (push lit s)

/-- PushReg: the register is read before push changes SP (R145). -/
def execPushReg (reg : Reg) (s : State) : Host.Outcome State Fault Refusal :=
  outcome (push (s.readReg reg) s)

/-- Pop: the register is written after pop has changed SP (R146). -/
def execPop (reg : Reg) (s : State) : Host.Outcome State Fault Refusal :=
  outcome do
    let (v, s) ← pop s
    .ok (s.writeReg reg v)

end Sys2Proof.Machine
end

