-- ==== Sys2Proof/Machine/Dispatch.lean ====
section
/-! DEFINITION. `execute(v)` of spec/40_fetch_decode.md R95: one handler per variant. -/

namespace Sys2Proof.Machine

/-- The handler of each instruction, run on the state after its operand fetches (R95, R98). -/
def exec (i : Instr) (s : State) : Host.Outcome State Fault Refusal :=
  match i with
  | .moveLitToReg lit dest => Sys2Proof.Machine.execMoveLitToReg lit dest s
  | .moveRegToReg src dest => Sys2Proof.Machine.execMoveRegToReg src dest s
  | .moveRegToMem src addr => Sys2Proof.Machine.execMoveRegToMem src addr s
  | .moveMemToReg addr dest => Sys2Proof.Machine.execMoveMemToReg addr dest s
  | .addRegReg reg1 reg2 => Sys2Proof.Machine.execAddRegReg reg1 reg2 s
  | .jmpNotEq lit target => Sys2Proof.Machine.execJmpNotEq lit target s
  | .pushLit lit => Sys2Proof.Machine.execPushLit lit s
  | .pushReg reg => Sys2Proof.Machine.execPushReg reg s
  | .pop reg => Sys2Proof.Machine.execPop reg s
  | .callLit target => Sys2Proof.Machine.execCallLit target s
  | .callReg reg => Sys2Proof.Machine.execCallReg reg s
  | .ret => Sys2Proof.Machine.execRet s
  | .hlt => Sys2Proof.Machine.execHlt s

end Sys2Proof.Machine
end

