-- ==== Sys2Proof/Machine/Operands.lean ====
section
/-! DEFINITION. The instruction stream: the decoder run on the machine's own fetch operations
(spec/40_fetch_decode.md R90 to R95). TOY16 has three operand forms, a 16-bit literal, a 16-bit
address and a register id (spec/30_encoding.md R70), and no other addressing mode. -/

namespace Sys2Proof.Machine

/-- The machine as the decoder's source: `fetch8` and `fetch16` at IP, and the two faults of
spec/60_exceptions.md R201 and R202. -/
def machineSource : ByteSource State Fault where
  fetch8 := fetch8
  fetch16 := fetch16
  invalidInstruction := .invalidInstruction
  invalidRegister := .invalidRegister

/-- Opcode fetch, decode and operand fetches of one step (R90, R95). The state answered has IP past
all of the instruction's bytes and is otherwise unchanged. -/
def fetchInstr (s : State) : Except Fault (Instr × State) := decodeFrom machineSource s

end Sys2Proof.Machine
end

