-- ==== Sys2Proof/Machine/Step.lean ====
section
/-! DEFINITION. The step (spec/40_fetch_decode.md R90), and placing one instruction where the step
fetches. -/

namespace Sys2Proof.Machine

/-- One step. A halted machine stays as it is, with no fetch (spec/46_halt.md R191); a faulted one
returns its fault again (spec/60_exceptions.md R204); a running one fetches, decodes and executes
one instruction (R90). -/
def step (s : State) : Host.Outcome State Fault Refusal :=
  match s.status with
  | .halted => .next s
  | .faulted f => .fault f
  | .running =>
    match fetchInstr s with
    | .error f => .fault f
    | .ok (i, s') => exec i s'

/-- The state with a table word's bytes stored from IP on, ready to run: a byte whose address has
no memory is left out, and the machine is running. -/
def State.withFetchWord (s : State) (nbits w : Nat) : State :=
  placeBytes (tableWordBytes nbits w) (s.readReg .ip) (s.withStatus .running)

end Sys2Proof.Machine
end

