-- ==== Sys2Proof/Machine/Driver.lean ====
section
/-! DEFINITION. The host's side (spec/70_reset_and_hazards.md R230, R234, R235;
spec/40_fetch_decode.md R96): construction, the launch state, one step with its result and the
state it leaves, and the driver loop. -/

namespace Sys2Proof.Machine

/-- Construction with a capacity; a capacity outside 2..65536 is refused (spec/00_scope.md R6;
93_implementation_defined.md item 8). -/
def State.construct (memSize : Nat) : Except Refusal State :=
  if legalCapacity memSize then .ok (State.constructed memSize)
  else .error (.illegalCapacity memSize)

/-- The host writes a byte before the first step; `M[a]` exists for `a < L` only (R234 item 2). -/
def hostWriteByte (a : Nat) (b : Byte) (s : State) : Except Refusal State :=
  if a < s.memSize then .ok (s.withMem (s.mem.write a b)) else .error (.hostWriteOutOfRange a)

/-- The host writes a register before the first step (R234 item 2). -/
def hostWriteReg (r : Reg) (v : Word) (s : State) : State := s.writeReg r v

/-- What a step returns to the driver (R96): `Continue`, `Halted` or `Fault(kind, info)`. -/
inductive StepResult where
  | continued
  | halted
  | fault (f : Fault)
  deriving DecidableEq, Repr

/-- One call of `step()` with its result and the state it leaves (R90, R96). A faulting step sets
the status to Faulted and leaves any values elsewhere, those of `any`; a step of a machine already
faulted makes no transition (R204). -/
def driverStep (any : Aftermath) (s : State) : Except Refusal (StepResult × State) :=
  match step s with
  | .next t => .ok (if t.status = .halted then .halted else .continued, t)
  | .fault f =>
    match s.status with
    | .faulted _ => .ok (.fault f, s)
    | .running => .ok (.fault f, takeFault f any s)
    | .halted => .ok (.fault f, takeFault f any s)
  | .refused r => .error r

/-- How the driver loop ends (R235, R236). `refused` is the model's own and never happens. -/
inductive RunEnd where
  | budget (s : State)
  | halted (s : State)
  | faulted (f : Fault)
  | refused (r : Refusal)
  deriving DecidableEq, Repr

/-- `run(machine, max_steps)` (R235). A faulted run keeps its kind and info only (R236). -/
def drive : Nat → State → RunEnd
  | 0, s => .budget s
  | n + 1, s =>
    match step s with
    | .next t => if t.status = .halted then .halted t else drive n t
    | .fault f => .faulted f
    | .refused r => .refused r

end Sys2Proof.Machine
end

