-- ==== Sys2Proof/Safety.lean ====
section
/-! DEFINITION. The terms statements about runs use: the invariant of a machine, and a run that
ends well. -/

namespace Sys2Proof.Machine

/-- The invariant of a machine: the capacity is one a machine can have (spec/00_scope.md R6), the
memory list is in canonical form, and it holds no byte outside `M[0]` to `M[L-1]`
(spec/10_state.md R39). -/
abbrev State.Inv (s : State) : Prop :=
  legalCapacity s.memSize = true ∧ s.mem.wf ∧ s.mem.within s.memSize

/-- A run ends well only in `Halted` (spec/70_reset_and_hazards.md R236). -/
def RunEnd.endsWell : RunEnd → Bool
  | .halted _ => true
  | .budget _ => false
  | .faulted _ => false
  | .refused _ => false

end Sys2Proof.Machine
end

