-- ==== Sys2Proof/Certificates/Slice0/Obligations.lean ====
section
/-! DEFINITION. The statements for the provers. A docstring names the rule of spec/ a statement
formalises. Where it rests on a decision the spec marks as its own (D<n> of
spec/92_eei_decisions.md) or on a choice of the model, it says so and names the log entry. -/

open Sys2Proof Sys2Proof.Machine

/-! ## Terms the statements share -/

namespace Sys2Proof.Claims

/-- Every register outside the list reads as before. -/
def SameRegsExcept (s t : State) (rs : List Reg) : Prop :=
  ∀ r, r ∉ rs → t.readReg r = s.readReg r

/-- The run status and the capacity are as before. -/
def SameControl (s t : State) : Prop := t.status = s.status ∧ t.memSize = s.memSize

/-- All of memory, the counter, the run status and the capacity are as before. -/
def OnlyRegsChange (s t : State) : Prop :=
  t.mem = s.mem ∧ t.fsc = s.fsc ∧ SameControl s t

/-- The word `v` was stored at `a`, high byte first, and every other byte reads as before. -/
def StoredWord (s t : State) (a v : Word) : Prop :=
  t.byteAt a = hiByte v ∧ t.byteAt (a + 1#16) = loByte v ∧
    ∀ x, x ≠ a → x ≠ a + 1#16 → t.byteAt x = s.byteAt x

/-- The outcome of an access to the word at `a` where one of its two bytes has no memory: the fault
carries the first such byte's address. -/
def WordBoundsFault (s : State) (a : Word) (o : Host.Outcome State Fault Refusal) : Prop :=
  (s.backed a = false → o = .fault (.boundsFault a)) ∧
    (s.backed a = true → s.backed (a + 1#16) = false → o = .fault (.boundsFault (a + 1#16)))

/-- `t` is `s` after a push of `v`: the word stored at SP, SP down and the counter up by 2. -/
def PushedWord (s t : State) (v : Word) : Prop :=
  StoredWord s t (s.readReg .sp) v ∧ t.readReg .sp = s.readReg .sp - 2#16 ∧
    t.fsc = s.fsc + 2#16 ∧ SameRegsExcept s t [.sp] ∧ SameControl s t

/-- The place of the `k`-th word a call saves: `2k` below SP. -/
def framePlace (s : State) (k : Nat) : Word := s.readReg .sp - BitVec.ofNat 16 (2 * k)

/-- `t` is `s` after state-save, IP apart: the ten words of the frame in place, every other byte as
before, SP and FP at the place below them, the counter 0. -/
def SavedFrame (s t : State) : Prop :=
  t.wordAt (framePlace s 0) = s.readReg .r1 ∧
  t.wordAt (framePlace s 1) = s.readReg .r2 ∧
  t.wordAt (framePlace s 2) = s.readReg .r3 ∧
  t.wordAt (framePlace s 3) = s.readReg .r4 ∧
  t.wordAt (framePlace s 4) = s.readReg .r5 ∧
  t.wordAt (framePlace s 5) = s.readReg .r6 ∧
  t.wordAt (framePlace s 6) = s.readReg .r7 ∧
  t.wordAt (framePlace s 7) = s.readReg .r8 ∧
  t.wordAt (framePlace s 8) = s.readReg .ip ∧
  t.wordAt (framePlace s 9) = s.fsc + 20#16 ∧
  (∀ x, (∀ k < 10, x ≠ framePlace s k ∧ x ≠ framePlace s k + 1#16) → t.byteAt x = s.byteAt x) ∧
  t.readReg .sp = s.readReg .sp - 20#16 ∧ t.readReg .fp = s.readReg .sp - 20#16 ∧
  t.fsc = 0#16 ∧ SameRegsExcept s t [.ip, .sp, .fp] ∧ SameControl s t

/-- The outcome of a call whose frame does not fit in memory: the fault of the first push without
memory. -/
def FrameBoundsFault (s : State) (o : Host.Outcome State Fault Refusal) : Prop :=
  ∀ k < 10, (∀ j < k, s.backedWord (framePlace s j) = true) → WordBoundsFault s (framePlace s k) o

/-- The place of the `k`-th word a Ret pops, the first being 0: `2(k+1)` above FP. -/
def popPlace (s : State) (k : Nat) : Word := s.readReg .fp + BitVec.ofNat 16 (2 * (k + 1))

/-- The argument count a Ret finds, the eleventh word it pops. -/
def argCount (s : State) : Nat := (s.wordAt (popPlace s 10)).toNat

/-- The counter a Ret leaves: the saved word less 2 for each pop after the first. -/
def counterAfterRet (s : State) : Word :=
  s.wordAt (popPlace s 0) - 20#16 - BitVec.ofNat 16 (2 * argCount s)

/-- `t` is `s` after state-restore. -/
def Restored (s t : State) : Prop :=
  t.readReg .ip = s.wordAt (popPlace s 1) ∧
  t.readReg .r8 = s.wordAt (popPlace s 2) ∧
  t.readReg .r7 = s.wordAt (popPlace s 3) ∧
  t.readReg .r6 = s.wordAt (popPlace s 4) ∧
  t.readReg .r5 = s.wordAt (popPlace s 5) ∧
  t.readReg .r4 = s.wordAt (popPlace s 6) ∧
  t.readReg .r3 = s.wordAt (popPlace s 7) ∧
  t.readReg .r2 = s.wordAt (popPlace s 8) ∧
  t.readReg .r1 = s.wordAt (popPlace s 9) ∧
  t.readReg .sp = s.readReg .fp + BitVec.ofNat 16 (22 + 2 * argCount s) ∧
  t.fsc = counterAfterRet s ∧
  t.readReg .fp = s.readReg .fp + counterAfterRet s ∧
  t.readReg .acc = s.readReg .acc ∧ t.mem = s.mem ∧ SameControl s t

/-- A running machine with the bytes `bs` at IP runs the instruction `i`, IP being past `bs`. -/
def RunsAs (s : State) (bs : List Byte) (i : Instr) : Prop :=
  s.status = .running → s.holdsBytes (s.readReg .ip) bs = true →
    step s = exec i (s.writeReg .ip (s.readReg .ip + BitVec.ofNat 16 bs.length))

/-- A running machine with the bytes `bs` at IP and no memory for the byte after them faults there,
`bs` being the start of an instruction that needs that byte. -/
def BoundsFaultAfter (s : State) (bs : List Byte) : Prop :=
  s.status = .running → s.holdsBytes (s.readReg .ip) bs = true →
    s.backed (s.readReg .ip + BitVec.ofNat 16 bs.length) = false →
      step s = .fault (.boundsFault (s.readReg .ip + BitVec.ofNat 16 bs.length))

/-- A running machine with the bytes `bs` at IP and an illegal register id after them faults with
that byte, `bs` being the start of an instruction with a register field there. -/
def InvalidRegisterAfter (s : State) (bs : List Byte) : Prop :=
  ∀ b, legalRegisterId b = false → s.status = .running →
    s.holdsBytes (s.readReg .ip) (bs ++ [b]) = true → step s = .fault (.invalidRegister b)

/-- The registers an instruction writes besides its register-id destination and besides IP's advance
by the fetches (spec/10_state.md R24, the table of implicit writers). -/
def implicitWrites : Instr → List Reg
  | .moveLitToReg _ _ => []
  | .moveRegToReg _ _ => []
  | .moveRegToMem _ _ => []
  | .moveMemToReg _ _ => []
  | .addRegReg _ _ => [.acc]
  | .jmpNotEq _ _ => [.ip]
  | .pushLit _ => [.sp]
  | .pushReg _ => [.sp]
  | .pop _ => [.sp]
  | .callLit _ => [.ip, .sp, .fp]
  | .callReg _ => [.ip, .sp, .fp]
  | .ret => [.ip, .sp, .fp, .r1, .r2, .r3, .r4, .r5, .r6, .r7, .r8]
  | .hlt => []

/-- `x` is a byte the instruction stores to from the state `s` after its operand fetches. -/
def storesTo (i : Instr) (s : State) (x : Word) : Prop :=
  match i with
  | .moveLitToReg _ _ => False
  | .moveRegToReg _ _ => False
  | .moveRegToMem _ a => x = a ∨ x = a + 1#16
  | .moveMemToReg _ _ => False
  | .addRegReg _ _ => False
  | .jmpNotEq _ _ => False
  | .pushLit _ => x = s.readReg .sp ∨ x = s.readReg .sp + 1#16
  | .pushReg _ => x = s.readReg .sp ∨ x = s.readReg .sp + 1#16
  | .pop _ => False
  | .callLit _ => ∃ k < 10, x = framePlace s k ∨ x = framePlace s k + 1#16
  | .callReg _ => ∃ k < 10, x = framePlace s k ∨ x = framePlace s k + 1#16
  | .ret => False
  | .hlt => False

/-- IP after a completed step that ran `i` from the state `s` after its operand fetches
(spec/40_fetch_decode.md R99). -/
def ipAfter (i : Instr) (s : State) : Word :=
  match i with
  | .moveLitToReg lit d => if d = .ip then lit else s.readReg .ip
  | .moveRegToReg r d => if d = .ip then s.readReg r else s.readReg .ip
  | .moveRegToMem _ _ => s.readReg .ip
  | .moveMemToReg a d => if d = .ip then s.wordAt a else s.readReg .ip
  | .addRegReg _ _ => s.readReg .ip
  | .jmpNotEq lit target => if lit = s.readReg .acc then s.readReg .ip else target
  | .pushLit _ => s.readReg .ip
  | .pushReg _ => s.readReg .ip
  | .pop r => if r = .ip then s.wordAt (s.readReg .sp + 2#16) else s.readReg .ip
  | .callLit target => target
  | .callReg r => s.readReg r
  | .ret => s.wordAt (s.readReg .fp + 4#16)
  | .hlt => s.readReg .ip

end Sys2Proof.Claims

open Sys2Proof.Claims

/-! ## The instructions, each as its rule states it

Every statement has two parts: what `exec` does on the state after the operand fetches, with its
frame; and, from the rule's encoding and its list of exceptions, which bytes at IP run it and how
each operand field can fault. -/

/-- R110, MoveLitToReg. In this and the following statements `+` on addresses is the spec's `+16`,
whose wrap is its decision D2 (log entry 4). -/
def Obligations.MoveLitToRegWritesLiteral : Prop :=
  (∀ lit d s, ∃ t, exec (.moveLitToReg lit d) s = .next t ∧
    t.readReg d = lit ∧ SameRegsExcept s t [d] ∧ OnlyRegsChange s t) ∧
  ∀ s h l d, RunsAs s [0x10#8, h, l, regId d] (.moveLitToReg (wordOfBytes h l) d) ∧
    BoundsFaultAfter s [0x10#8] ∧ BoundsFaultAfter s [0x10#8, h] ∧
    BoundsFaultAfter s [0x10#8, h, l] ∧ InvalidRegisterAfter s [0x10#8, h, l]

/-- R111, MoveRegToReg. That `s = IP` copies the next instruction's address is the spec's decision
D8 (log entry 8): here it follows, since the second part runs `exec` with IP past the bytes. -/
def Obligations.MoveRegToRegCopies : Prop :=
  (∀ r d s, ∃ t, exec (.moveRegToReg r d) s = .next t ∧
    t.readReg d = s.readReg r ∧ SameRegsExcept s t [d] ∧ OnlyRegsChange s t) ∧
  ∀ s r d, RunsAs s [0x11#8, regId r, regId d] (.moveRegToReg r d) ∧
    BoundsFaultAfter s [0x11#8] ∧ InvalidRegisterAfter s [0x11#8] ∧
    BoundsFaultAfter s [0x11#8, regId r] ∧ InvalidRegisterAfter s [0x11#8, regId r]

/-- R112, MoveRegToMem. The store is at the address operand `a` and at `a +16 1`. That both bytes
are checked before either is written is the spec's decision D3 (log entry 5); what memory holds
after a faulting store is open (R204), so nothing is said of it. -/
def Obligations.MoveRegToMemStoresWord : Prop :=
  (∀ r a s, s.backedWord a = true → ∃ t, exec (.moveRegToMem r a) s = .next t ∧
    StoredWord s t a (s.readReg r) ∧ SameRegsExcept s t [] ∧ t.fsc = s.fsc ∧ SameControl s t) ∧
  (∀ r a s, WordBoundsFault s a (exec (.moveRegToMem r a) s)) ∧
  ∀ s r h l, RunsAs s [0x12#8, regId r, h, l] (.moveRegToMem r (wordOfBytes h l)) ∧
    BoundsFaultAfter s [0x12#8] ∧ InvalidRegisterAfter s [0x12#8] ∧
    BoundsFaultAfter s [0x12#8, regId r] ∧ BoundsFaultAfter s [0x12#8, regId r, h]

/-- R113, MoveMemToReg. -/
def Obligations.MoveMemToRegLoadsWord : Prop :=
  (∀ a d s, s.backedWord a = true → ∃ t, exec (.moveMemToReg a d) s = .next t ∧
    t.readReg d = wordOfBytes (s.byteAt a) (s.byteAt (a + 1#16)) ∧ SameRegsExcept s t [d] ∧
    OnlyRegsChange s t) ∧
  (∀ a d s, WordBoundsFault s a (exec (.moveMemToReg a d) s)) ∧
  ∀ s h l d, RunsAs s [0x13#8, h, l, regId d] (.moveMemToReg (wordOfBytes h l) d) ∧
    BoundsFaultAfter s [0x13#8] ∧ BoundsFaultAfter s [0x13#8, h] ∧
    BoundsFaultAfter s [0x13#8, h, l] ∧ InvalidRegisterAfter s [0x13#8, h, l]

/-- R121, AddRegReg. That the sum wraps modulo 65536 is the spec's decision D2 (log entry 4), and
that IP as an operand reads past the instruction is its decision D8 (log entry 8). -/
def Obligations.AddRegRegSumsIntoAcc : Prop :=
  (∀ p q s, ∃ t, exec (.addRegReg p q) s = .next t ∧
    (t.readReg .acc).toNat = ((s.readReg p).toNat + (s.readReg q).toNat) % 65536 ∧
    SameRegsExcept s t [.acc] ∧ OnlyRegsChange s t) ∧
  ∀ s p q, RunsAs s [0x14#8, regId p, regId q] (.addRegReg p q) ∧
    BoundsFaultAfter s [0x14#8] ∧ InvalidRegisterAfter s [0x14#8] ∧
    BoundsFaultAfter s [0x14#8, regId p] ∧ InvalidRegisterAfter s [0x14#8, regId p]

/-- R130, JmpNotEq. The target is not checked by the jump: one without memory faults at the next
step's opcode fetch. -/
def Obligations.JmpNotEqBranchesOnAcc : Prop :=
  (∀ lit target s, ∃ t, exec (.jmpNotEq lit target) s = .next t ∧
    (lit ≠ s.readReg .acc → t.readReg .ip = target) ∧
    (lit = s.readReg .acc → t.readReg .ip = s.readReg .ip) ∧
    SameRegsExcept s t [.ip] ∧ OnlyRegsChange s t ∧
    (lit ≠ s.readReg .acc → s.status = .running → s.backed target = false →
      step t = .fault (.boundsFault target))) ∧
  ∀ s h l h' l', RunsAs s [0x15#8, h, l, h', l']
      (.jmpNotEq (wordOfBytes h l) (wordOfBytes h' l')) ∧
    BoundsFaultAfter s [0x15#8] ∧ BoundsFaultAfter s [0x15#8, h] ∧
    BoundsFaultAfter s [0x15#8, h, l] ∧ BoundsFaultAfter s [0x15#8, h, l, h']

/-- R144, PushLit. The store is at SP. That SP and the counter wrap is the spec's decision D2 (log
entry 4). -/
def Obligations.PushLitPushesLiteral : Prop :=
  (∀ lit s, s.backedWord (s.readReg .sp) = true → ∃ t, exec (.pushLit lit) s = .next t ∧
    PushedWord s t lit) ∧
  (∀ lit s, WordBoundsFault s (s.readReg .sp) (exec (.pushLit lit) s)) ∧
  ∀ s h l, RunsAs s [0x17#8, h, l] (.pushLit (wordOfBytes h l)) ∧
    BoundsFaultAfter s [0x17#8] ∧ BoundsFaultAfter s [0x17#8, h]

/-- R145, PushReg. The store is at SP, and PushReg(SP) pushes SP as it was. That PushReg(IP) pushes
the next instruction's address is the spec's decision D8 (log entry 8), the wrap its decision D2
(log entry 4). -/
def Obligations.PushRegPushesValue : Prop :=
  (∀ r s, s.backedWord (s.readReg .sp) = true → ∃ t, exec (.pushReg r) s = .next t ∧
    PushedWord s t (s.readReg r)) ∧
  (∀ r s, WordBoundsFault s (s.readReg .sp) (exec (.pushReg r) s)) ∧
  ∀ s r, RunsAs s [0x18#8, regId r] (.pushReg r) ∧
    BoundsFaultAfter s [0x18#8] ∧ InvalidRegisterAfter s [0x18#8]

/-- R146, Pop. Pop(SP) leaves the popped word in SP. That SP and the counter wrap is the spec's
decision D2 (log entry 4). -/
def Obligations.PopLoadsTopOfStack : Prop :=
  (∀ r s, s.backedWord (s.readReg .sp + 2#16) = true → ∃ t, exec (.pop r) s = .next t ∧
    t.readReg r = s.wordAt (s.readReg .sp + 2#16) ∧
    (r ≠ .sp → t.readReg .sp = s.readReg .sp + 2#16) ∧
    t.fsc = s.fsc - 2#16 ∧ t.mem = s.mem ∧ SameRegsExcept s t [r, .sp] ∧ SameControl s t) ∧
  (∀ r s, WordBoundsFault s (s.readReg .sp + 2#16) (exec (.pop r) s)) ∧
  ∀ s r, RunsAs s [0x19#8, regId r] (.pop r) ∧
    BoundsFaultAfter s [0x19#8] ∧ InvalidRegisterAfter s [0x19#8]

/-- R168, CallLit, with the frame of R161 and R164. The stores are at the ten places from SP down.
The order R1 to R8 is the spec's decision D1, the wrap its decision D2 (log entries 4, 16). -/
def Obligations.CallLitSavesFrameAndJumps : Prop :=
  (∀ target s, (∀ k < 10, s.backedWord (framePlace s k) = true) →
    ∃ t, exec (.callLit target) s = .next t ∧ t.readReg .ip = target ∧ SavedFrame s t) ∧
  (∀ target s, FrameBoundsFault s (exec (.callLit target) s)) ∧
  ∀ s h l, RunsAs s [0x5E#8, h, l] (.callLit (wordOfBytes h l)) ∧
    BoundsFaultAfter s [0x5E#8] ∧ BoundsFaultAfter s [0x5E#8, h]

/-- R169, CallReg: as CallLit, the target being the register's value before state-save. That
CallReg(IP) calls the next instruction is the spec's decision D8 (log entry 8). -/
def Obligations.CallRegSavesFrameAndJumps : Prop :=
  (∀ r s, (∀ k < 10, s.backedWord (framePlace s k) = true) →
    ∃ t, exec (.callReg r) s = .next t ∧ t.readReg .ip = s.readReg r ∧ SavedFrame s t) ∧
  (∀ r s, FrameBoundsFault s (exec (.callReg r) s)) ∧
  ∀ s r, RunsAs s [0x5F#8, regId r] (.callReg r) ∧
    BoundsFaultAfter s [0x5F#8] ∧ InvalidRegisterAfter s [0x5F#8]

/-- R170, Ret, with the six steps of R162. That the discarding pops read memory and that the saved
word replaces the counter after the pop's own decrement are the spec's decision D14 (log
entry 9). -/
def Obligations.RetRestoresFrame : Prop :=
  (∀ s, (∀ k < 11 + argCount s, s.backedWord (popPlace s k) = true) →
    ∃ t, exec .ret s = .next t ∧ Restored s t) ∧
  (∀ s, ∀ k < 11 + argCount s, (∀ j < k, s.backedWord (popPlace s j) = true) →
    WordBoundsFault s (popPlace s k) (exec .ret s)) ∧
  ∀ s, RunsAs s [0x60#8] .ret

/-- R190, Hlt: the spec's decision D6 (log entry 6). -/
def Obligations.HltHaltsAndChangesNothingElse : Prop :=
  (∀ s, ∃ t, exec .hlt s = .next t ∧ t.status = .halted ∧ SameRegsExcept s t [] ∧
    t.fsc = s.fsc ∧ t.mem = s.mem ∧ t.memSize = s.memSize) ∧
  ∀ s, RunsAs s [0xFF#8] .hlt

/-! ## Encoding -/

/-- One word of each of the 13 rows, written out from the table and the worked encodings of
spec/95_test_vectors.md section 1.1, decodes to its instruction. -/
def Obligations.WrittenOutWordsDecode : Prop :=
  decode [0x10#8, 0x12#8, 0x34#8, 0x04#8] = .ok (.moveLitToReg 0x1234#16 .r1, []) ∧
  decode [0x11#8, 0x04#8, 0x05#8] = .ok (.moveRegToReg .r1 .r2, []) ∧
  decode [0x12#8, 0x03#8, 0x00#8, 0x01#8] = .ok (.moveRegToMem .acc 0x0001#16, []) ∧
  decode [0x13#8, 0x00#8, 0x01#8, 0x04#8] = .ok (.moveMemToReg 0x0001#16 .r1, []) ∧
  decode [0x14#8, 0x04#8, 0x05#8] = .ok (.addRegReg .r1 .r2, []) ∧
  decode [0x15#8, 0x00#8, 0x03#8, 0x00#8, 0x00#8] = .ok (.jmpNotEq 0x0003#16 0x0000#16, []) ∧
  decode [0x17#8, 0x12#8, 0x34#8] = .ok (.pushLit 0x1234#16, []) ∧
  decode [0x18#8, 0x01#8] = .ok (.pushReg .sp, []) ∧
  decode [0x19#8, 0x0B#8] = .ok (.pop .r8, []) ∧
  decode [0x5E#8, 0x00#8, 0x40#8] = .ok (.callLit 0x0040#16, []) ∧
  decode [0x5F#8, 0x06#8] = .ok (.callReg .r3, []) ∧
  decode [0x60#8] = .ok (.ret, []) ∧
  decode [0xFF#8] = .ok (.hlt, [])

/-- Decoding an encoded instruction gives it back, whatever bytes follow (R80). -/
def Obligations.DecodeEncodeRoundTrip : Prop :=
  ∀ (i : Instr) (rest : List Byte), decode (encode i ++ rest) = .ok (i, rest)

/-- Bytes that decode are the encoding of what they decode to (R80). -/
def Obligations.EncodeDecodeRoundTrip : Prop :=
  ∀ (bs rest : List Byte) (i : Instr), decode bs = .ok (i, rest) → bs = encode i ++ rest

/-- The decoder accepts exactly the bytes of one legal instruction, as the lists and tables of R71,
R72, R76 and R77 say which they are. -/
def Obligations.DecoderAcceptsExactlyLegalBytes : Prop :=
  ∀ bs : List Byte, (∃ i, decode bs = .ok (i, [])) ↔ wellFormedEncoding bs = true

/-- R94 and R76: each of the 13 opcode bytes decodes to its variant, every byte of the illegal
ranges is InvalidInstruction with that byte whatever follows it, and no other byte is. -/
def Obligations.OpcodeDecodeIsClosed : Prop :=
  opcodeOfByte 0x10#8 = some .moveLitToReg ∧ opcodeOfByte 0x11#8 = some .moveRegToReg ∧
  opcodeOfByte 0x12#8 = some .moveRegToMem ∧ opcodeOfByte 0x13#8 = some .moveMemToReg ∧
  opcodeOfByte 0x14#8 = some .addRegReg ∧ opcodeOfByte 0x15#8 = some .jmpNotEq ∧
  opcodeOfByte 0x17#8 = some .pushLit ∧ opcodeOfByte 0x18#8 = some .pushReg ∧
  opcodeOfByte 0x19#8 = some .pop ∧ opcodeOfByte 0x5E#8 = some .callLit ∧
  opcodeOfByte 0x5F#8 = some .callReg ∧ opcodeOfByte 0x60#8 = some .ret ∧
  opcodeOfByte 0xFF#8 = some .hlt ∧
  ∀ (op : Byte) (rest : List Byte),
    decode (op :: rest) = .error (.invalidInstruction op) ↔ legalOpcode op = false

/-- R72: the length of a decoded instruction is fixed by its first byte, by the table of lengths. -/
def Obligations.OpcodeByteFixesLength : Prop :=
  ∀ (op : Byte) (tail rest : List Byte) (i : Instr), decode (op :: tail) = .ok (i, rest) →
    op = opcodeByte i.opcode ∧ (op :: tail).length = opcodeLength i.opcode + rest.length ∧
    ∃ regs, encodingShape op = some (opcodeLength i.opcode, regs)

/-! ## The step -/

/-- A running machine whose bytes at IP decode to `i` runs `i`, with IP past the instruction's bytes
and nothing else changed (R90, R95; the status check is the spec's decision D5 and D6). -/
def Obligations.StepRunsDecodedInstruction : Prop :=
  ∀ (s : State) (bs rest : List Byte) (i : Instr), s.status = .running →
    s.holdsBytes (s.readReg .ip) bs = true → decode bs = .ok (i, rest) →
      step s = exec i (s.writeReg .ip (s.readReg .ip + BitVec.ofNat 16 (instrLength i)))

/-- The faults of fetching, in order (R205 items 1 to 3): the bytes at IP decide, and where they end
inside the instruction, the fault is at the first byte without memory. With no byte at all that is
the opcode fetch. -/
def Obligations.StepFaultsInFetchOrder : Prop :=
  ∀ (s : State) (bs : List Byte), s.status = .running →
    s.holdsBytes (s.readReg .ip) bs = true →
      (∀ op, decode bs = .error (.invalidInstruction op) →
        step s = .fault (.invalidInstruction op)) ∧
      (∀ b, decode bs = .error (.invalidRegister b) → step s = .fault (.invalidRegister b)) ∧
      (decode bs = .error .truncated →
        s.backed (s.readReg .ip + BitVec.ofNat 16 bs.length) = false →
          step s = .fault (.boundsFault (s.readReg .ip + BitVec.ofNat 16 bs.length)))

/-- R201 in a step: InvalidInstruction is raised exactly when the byte at IP is none of the 13
opcodes, and carries that byte; an opcode fetch without memory is a BoundsFault instead. -/
def Obligations.StepRejectsExactlyIllegalOpcodes : Prop :=
  ∀ s : State, s.status = .running →
    (∀ op, step s = .fault (.invalidInstruction op) ↔
      s.backed (s.readReg .ip) = true ∧ s.byteAt (s.readReg .ip) = op ∧
        ∀ v, opcodeByte v ≠ op) ∧
    (s.backed (s.readReg .ip) = false → step s = .fault (.boundsFault (s.readReg .ip)))

/-- R91, R92 and R93: the three fetch operations. -/
def Obligations.FetchOperationsAdvanceIp : Prop :=
  ∀ s : State,
    (s.backed (s.readReg .ip) = true →
      fetch8 s = .ok (s.byteAt (s.readReg .ip), s.writeReg .ip (s.readReg .ip + 1#16))) ∧
    (s.backed (s.readReg .ip) = false → fetch8 s = .error (.boundsFault (s.readReg .ip))) ∧
    (s.backedWord (s.readReg .ip) = true →
      fetch16 s = .ok (wordOfBytes (s.byteAt (s.readReg .ip)) (s.byteAt (s.readReg .ip + 1#16)),
        s.writeReg .ip (s.readReg .ip + 2#16))) ∧
    (s.backed (s.readReg .ip) = false → fetch16 s = .error (.boundsFault (s.readReg .ip))) ∧
    (s.backed (s.readReg .ip) = true → s.backed (s.readReg .ip + 1#16) = false →
      fetch16 s = .error (.boundsFault (s.readReg .ip + 1#16))) ∧
    (s.backed (s.readReg .ip) = false →
      fetchReg machineSource s = .error (.boundsFault (s.readReg .ip))) ∧
    (s.backed (s.readReg .ip) = true →
      (0x0B < (s.byteAt (s.readReg .ip)).toNat →
        fetchReg machineSource s = .error (.invalidRegister (s.byteAt (s.readReg .ip)))) ∧
      ((s.byteAt (s.readReg .ip)).toNat ≤ 0x0B →
        ∃ r, regId r = s.byteAt (s.readReg .ip) ∧
          fetchReg machineSource s = .ok (r, s.writeReg .ip (s.readReg .ip + 1#16))))

/-- R99, which the spec derives from its instruction rules: IP when a step completes. -/
def Obligations.StepLeavesIpAsListed : Prop :=
  ∀ (s t : State) (i : Instr), s.status = .running →
    s.holdsBytes (s.readReg .ip) (encode i) = true → step s = .next t →
      t.readReg .ip =
        ipAfter i (s.writeReg .ip (s.readReg .ip + BitVec.ofNat 16 (instrLength i)))

/-- Every fault of a running machine's step has its cause (R201, R202, R203): a bounds fault's
address is at or above the capacity, an InvalidInstruction is the illegal byte at IP, an
InvalidRegister is an illegal id among the operand bytes, and Unimplemented is never raised (the
spec's decision D15, log entry 14). -/
def Obligations.StepFaultsHaveTheirCause : Prop :=
  ∀ (s : State) (f : Fault), s.status = .running → step s = .fault f →
    match f with
    | .boundsFault a => s.memSize ≤ a.toNat
    | .invalidInstruction op =>
      s.backed (s.readReg .ip) = true ∧ s.byteAt (s.readReg .ip) = op ∧ legalOpcode op = false
    | .invalidRegister b =>
      legalRegisterId b = false ∧
        ∃ k, 1 ≤ k ∧ k ≤ 3 ∧ s.backed (s.readReg .ip + BitVec.ofNat 16 k) = true ∧
          s.byteAt (s.readReg .ip + BitVec.ofNat 16 k) = b
    | .unimplemented _ => False

/-- Every decoded instruction has its handler (R98): the model refuses nothing. -/
def Obligations.NothingIsRefused : Prop :=
  ∀ (s : State) (r : Refusal), step s ≠ .refused r ∧ ∀ i, exec i s ≠ .refused r

/-- A running machine's step ends Halted exactly when it ran a Hlt, and otherwise goes on Running
(R96, R213; the spec's decision D6, log entry 6). -/
def Obligations.OnlyHltHalts : Prop :=
  ∀ s t : State, s.status = .running → step s = .next t →
    (s.byteAt (s.readReg .ip) = 0xFF#8 → t.status = .halted) ∧
    (s.byteAt (s.readReg .ip) ≠ 0xFF#8 → t.status = .running)

/-- Halted is never left and nothing changes in it, and a faulted machine answers the same fault
for ever (R191, R204: the spec's decisions D5 and D6, log entries 2 and 6). -/
def Obligations.FinalStatusesAreFinal : Prop :=
  ∀ (s : State) (n : Nat),
    (s.status = .halted → Sys2Proof.core.run n s = .next s) ∧
    (∀ f, s.status = .faulted f → Sys2Proof.core.run (n + 1) s = .fault f)

/-! ## Whole-machine rules -/

/-- The invariant holds of every machine right after construction, the reset state among them
(R6, R39, R230). -/
def Obligations.ConstructedMachinesMeetInvariant : Prop :=
  State.reset.Inv ∧ ∀ (L : Nat) (s : State), State.construct L = .ok s → s.Inv

/-- Every step keeps the invariant: a legal capacity, memory in canonical form and inside the
array. -/
def Obligations.StepKeepsInvariant : Prop :=
  ∀ s t : State, s.Inv → step s = .next t → t.Inv

/-- The capacity is fixed for the life of a machine (R6), also across a fault (R204). -/
def Obligations.CapacityIsFixed : Prop :=
  (∀ s t : State, step s = .next t → t.memSize = s.memSize) ∧
  ∀ (any : Aftermath) (s t : State) (r : StepResult),
    driverStep any s = .ok (r, t) → t.memSize = s.memSize

/-- R24, which the spec derives from its instruction rules: no instruction writes a register but its
register-id destination and its implicit ones. -/
def Obligations.OnlyListedWritersChangeRegisters : Prop :=
  ∀ (i : Instr) (s t : State) (r : Reg), exec i s = .next t → i.dest? ≠ some r →
    r ∉ implicitWrites i → t.readReg r = s.readReg r

/-- No instruction changes a byte but those it stores to (R57, R58): two bytes of MoveRegToMem at
its address, two of a push at SP, twenty of a call's frame, none of any other. -/
def Obligations.OnlyStoredBytesChange : Prop :=
  ∀ (i : Instr) (s t : State), exec i s = .next t →
    ∀ x, ¬ storesTo i s x → t.byteAt x = s.byteAt x

/-- R35, which the spec derives: the counter is seen in two places only, the word a call saves and
the FP a Ret computes from the word it restores. Two machines that differ in the counter alone go on
differing in it alone and by as much, but for the saved word of a call; a Ret makes them equal; and
they fault alike. -/
def Obligations.CounterIsSeenOnlyThroughFrames : Prop :=
  ∀ (i : Instr) (s : State) (c : Word),
    (∀ f, exec i s = .fault f → exec i (s.withFsc c) = .fault f) ∧
    (i = .ret → exec i (s.withFsc c) = exec i s) ∧
    (∀ t, exec i s = .next t → ∃ u, exec i (s.withFsc c) = .next u ∧
      (∀ r, u.readReg r = t.readReg r) ∧ u.status = t.status ∧ u.memSize = t.memSize ∧
      (i.opcode ≠ .callLit → i.opcode ≠ .callReg → u.mem = t.mem) ∧
      (i.opcode ≠ .callLit → i.opcode ≠ .callReg → i.opcode ≠ .ret →
        u.fsc - t.fsc = c - s.fsc) ∧
      (i.opcode = .callLit ∨ i.opcode = .callReg → u.fsc = t.fsc ∧
        ∀ x, x ≠ framePlace s 9 → x ≠ framePlace s 9 + 1#16 → u.byteAt x = t.byteAt x))

/-! ## Registers and memory -/

/-- R21: the ids of the 12 registers, which are all the legal ids, and their reset values, for every
capacity a machine can have. -/
def Obligations.RegistersAtReset : Prop :=
  regId .ip = 0x00#8 ∧ regId .sp = 0x01#8 ∧ regId .fp = 0x02#8 ∧ regId .acc = 0x03#8 ∧
  regId .r1 = 0x04#8 ∧ regId .r2 = 0x05#8 ∧ regId .r3 = 0x06#8 ∧ regId .r4 = 0x07#8 ∧
  regId .r5 = 0x08#8 ∧ regId .r6 = 0x09#8 ∧ regId .r7 = 0x0A#8 ∧ regId .r8 = 0x0B#8 ∧
  (∀ b, (∃ r, regId r = b) ↔ legalRegisterId b = true) ∧
  State.reset.readReg .sp = 0xFFFD#16 ∧ State.reset.readReg .fp = 0xFFFD#16 ∧
  ∀ (L : Nat) (s : State), State.construct L = .ok s →
    (s.readReg .sp).toNat = L - 2 ∧ (s.readReg .fp).toNat = L - 2 ∧
    ∀ r, r ≠ .sp → r ≠ .fp → s.readReg r = 0#16

/-- R230 and R6: the state after construction but for the registers, which RegistersAtReset states,
and which capacities are refused. That the counter is 0 is the spec's decision D7 (log entry 7), the
range its decision D4 (log entry 1). -/
def Obligations.ConstructionSetsAllButRegisters : Prop :=
  (∀ L, (∃ s, State.construct L = .ok s) ↔ 2 ≤ L ∧ L ≤ 65536) ∧
  State.construct 65535 = .ok State.reset ∧
  ∀ (L : Nat) (s : State), State.construct L = .ok s →
    s.memSize = L ∧ s.fsc = 0#16 ∧ s.status = .running ∧ ∀ a, s.mem.read a = 0#8

/-- R25, whose form is the spec's decision D10: a register reads as last written, and a write
touches nothing else. -/
def Obligations.RegisterFileReadsBack : Prop :=
  ∀ (s : State) (r r' : Reg) (v : Word),
    (s.writeReg r v).readReg r = v ∧
    (r' ≠ r → (s.writeReg r v).readReg r' = s.readReg r') ∧
    OnlyRegsChange s (s.writeReg r v)

/-- R53: `MemRead`. -/
def Obligations.MemReadIsBigEndianAndChecked : Prop :=
  ∀ (a : Word) (s : State),
    (a.toNat < s.memSize → memRead8 a s = .ok (s.mem.read a.toNat)) ∧
    (s.memSize ≤ a.toNat → memRead8 a s = .error (.boundsFault a) ∧
      memRead16 a s = .error (.boundsFault a)) ∧
    (a.toNat < s.memSize → s.memSize ≤ (a + 1#16).toNat →
      memRead16 a s = .error (.boundsFault (a + 1#16))) ∧
    (a.toNat < s.memSize → (a + 1#16).toNat < s.memSize → ∃ v, memRead16 a s = .ok v ∧
      v.toNat = (s.mem.read a.toNat).toNat * 256 + (s.mem.read (a + 1#16).toNat).toNat)

/-- The round trip of R55, corrected by 90_conflicts.md C3: a word written at `a` reads back there,
and is its two bytes high byte first, whenever both have memory. -/
def Obligations.WordRoundTrip : Prop :=
  ∀ (a v : Word) (s : State), s.backedWord a = true →
    ∃ t, memWrite16 a v s = .ok t ∧ memRead16 a t = .ok v ∧
      v = wordOfBytes (t.byteAt a) (t.byteAt (a + 1#16))

/-- A store to code is seen by the next fetch there (R64, R240). -/
def Obligations.StoreIsSeenByNextFetch : Prop :=
  ∀ (r : Reg) (a : Word) (s : State), s.backedWord a = true →
    ∃ t, exec (.moveRegToMem r a) s = .next t ∧
      fetch16 (t.writeReg .ip a) = .ok (s.readReg r, t.writeReg .ip (a + 2#16))

/-- R120 and R122: the adder is addition modulo 65536 with its laws, and equality is equality (the
wrap is the spec's decision D2, log entry 4; eq16's place is its decision D16). -/
def Obligations.AluLaws : Prop :=
  ∀ a b c : Word,
    (add16 a b).toNat = (a.toNat + b.toNat) % 65536 ∧ (eq16 a b = true ↔ a = b) ∧
    add16 a b = add16 b a ∧ add16 (add16 a b) c = add16 a (add16 b c) ∧ add16 a 0#16 = a ∧
    ((add16 a b).toNat < a.toNat ↔ 65536 ≤ a.toNat + b.toNat)

/-! ## The stack and the call protocol -/

/-- R147, which the spec derives: words pushed and popped again come back in reverse order, and SP,
the counter and everything but the pushed words are as before. At most 32768 words, so that no push
overwrites another's word. -/
def Obligations.PushPopRoundTrip : Prop :=
  ∀ (vs : List Word) (s t : State), vs.length ≤ 32768 → pushWords vs s = .ok t →
    ∃ u, popWords vs.length t = .ok (vs.reverse, u) ∧ u.readReg .sp = s.readReg .sp ∧
      u.fsc = s.fsc ∧ SameRegsExcept s u [] ∧ SameControl s u ∧ u.mem = t.mem

/-- R163 and R170: neither SP nor the counter before a Ret has any effect on it (the spec's decision
D14, log entry 9). -/
def Obligations.RetIgnoresSpAndCounter : Prop :=
  ∀ (s : State) (p c : Word), exec .ret ((s.writeReg .sp p).withFsc c) = exec .ret s

/-- R166, which the spec derives: the net effect of a call and its return, when the callee leaves FP
and the frame as state-save made them. `S` is SP and `n` the word above the frame. FP does not
return to its value before the call (90_conflicts.md C5). -/
def Obligations.CallReturnPair : Prop :=
  ∀ (s t u : State),
    ((∃ target, exec (.callLit target) s = .next t) ∨ ∃ r, exec (.callReg r) s = .next t) →
    u.readReg .fp = t.readReg .fp → u.memSize = t.memSize →
    (∀ k < 10, u.wordAt (framePlace s k) = t.wordAt (framePlace s k)) →
    ∀ n : Nat, (u.wordAt (s.readReg .sp + 2#16)).toNat = n →
    (∀ j ≤ n, u.backedWord (s.readReg .sp + BitVec.ofNat 16 (2 + 2 * j)) = true) →
    ∃ v, exec .ret u = .next v ∧
      (∀ r ∈ generalRegs, v.readReg r = s.readReg r) ∧ v.readReg .ip = s.readReg .ip ∧
      v.readReg .sp = s.readReg .sp + BitVec.ofNat 16 (2 + 2 * n) ∧
      v.fsc = s.fsc - BitVec.ofNat 16 (2 * n) ∧
      v.readReg .fp = (s.readReg .sp - 20#16) + (s.fsc - BitVec.ofNat 16 (2 * n)) ∧
      v.readReg .acc = u.readReg .acc ∧ v.mem = u.mem ∧ SameControl u v

/-- R173, corrected by 90_conflicts.md C2: pushing arguments and their count, calling, and returning
at once removes them all, resumes after the call and restores the general registers. -/
def Obligations.ArgumentDiscard : Prop :=
  ∀ (args : List Word) (target : Word) (s s1 s2 : State), args.length + 11 ≤ 32768 →
    pushWords (args ++ [BitVec.ofNat 16 args.length]) s = .ok s1 →
    exec (.callLit target) s1 = .next s2 →
    ∃ v, exec .ret (s2.writeReg .ip (s2.readReg .ip + 1#16)) = .next v ∧
      v.readReg .sp = s.readReg .sp ∧ v.readReg .ip = s1.readReg .ip ∧
      ∀ r ∈ generalRegs, v.readReg r = s.readReg r

/-- R172 and R143: on a freshly constructed machine with a capacity below 65536, whatever is loaded
in memory, a Ret or a Pop finds no stack word and faults at the capacity. -/
def Obligations.EmptyStackFaultsAtCapacity : Prop :=
  ∀ (L : Nat) (s : State) (m : Memory) (r : Reg), State.construct L = .ok s → L ≤ 65535 →
    exec .ret (s.withMem m) = .fault (.boundsFault (BitVec.ofNat 16 L)) ∧
    exec (.pop r) (s.withMem m) = .fault (.boundsFault (BitVec.ofNat 16 L))

/-! ## Faults and the host -/

/-- R200: the codes of the fault kinds and the information each records (the spec's decision D11,
log entry 16). -/
def Obligations.FaultCodesAndInfo : Prop :=
  ∀ (b : Byte) (a : Word),
    (Fault.invalidInstruction b).code = 1 ∧ (Fault.invalidInstruction b).info = b.toNat ∧
    (Fault.invalidRegister b).code = 2 ∧ (Fault.invalidRegister b).info = b.toNat ∧
    (Fault.boundsFault a).code = 3 ∧ (Fault.boundsFault a).info = a.toNat ∧
    (Fault.unimplemented b).code = 4 ∧ (Fault.unimplemented b).info = b.toNat

/-- R204 and R96: a faulting step returns its fault and leaves the machine Faulted with it, whatever
the unspecified rest becomes; every later step returns the same and changes nothing (the spec's
decision D5, log entry 2). -/
def Obligations.FaultIsReportedAndKept : Prop :=
  ∀ (any : Aftermath) (s : State) (f : Fault), s.status = .running → step s = .fault f →
    ∃ t, driverStep any s = .ok (.fault f, t) ∧ t.status = .faulted f ∧
      ∀ any', driverStep any' t = .ok (.fault f, t)

/-- R235 and R236: a driver's run that has ended, in Halted or in a fault, ends the same way
whatever further steps it is allowed; a halted end is a machine in Halted. -/
def Obligations.EndedRunsStayEnded : Prop :=
  ∀ (n m : Nat) (s : State), n ≤ m →
    (∀ t, drive n s = .halted t → drive m s = .halted t ∧ t.status = .halted) ∧
    (∀ f, drive n s = .faulted f → drive m s = .faulted f)

/-- R234 item 2: what the host may write before the first step, and that it keeps the invariant (the
spec's decision D12, log entry 12). -/
def Obligations.HostWritesMakeLaunchStates : Prop :=
  ∀ (s : State) (a : Nat) (b : Byte) (r : Reg) (v : Word),
    (s.memSize ≤ a → hostWriteByte a b s = .error (.hostWriteOutOfRange a)) ∧
    (a < s.memSize → ∃ t, hostWriteByte a b s = .ok t ∧ t.mem.read a = b ∧
      (∀ x, x ≠ a → t.mem.read x = s.mem.read x) ∧ SameRegsExcept s t [] ∧ t.fsc = s.fsc ∧
      SameControl s t ∧ (s.Inv → t.Inv)) ∧
    (hostWriteReg r v s).readReg r = v ∧ SameRegsExcept s (hostWriteReg r v s) [r] ∧
    OnlyRegsChange s (hostWriteReg r v s) ∧ (s.Inv → (hostWriteReg r v s).Inv)
end

