-- ==== Sys2Proof/Laws/State.lean ====
section
/-! SUPPORT. One lemma per field and update of State, so that no later proof unfolds an update. -/

namespace Sys2Proof.Machine

theorem RegFile.get_set (f : RegFile) (r r' : Reg) (v : Word) :
    (f.set r v).get r' = if r' = r then v else f.get r' := by
  cases r <;> cases r' <;> rfl

/-- Register files that read alike are equal. -/
theorem RegFile.ext_get {f g : RegFile} (h : ∀ r, f.get r = g.get r) : f = g := by
  cases f; cases g
  have := h .ip; have := h .sp; have := h .fp; have := h .acc
  have := h .r1; have := h .r2; have := h .r3; have := h .r4
  have := h .r5; have := h .r6; have := h .r7; have := h .r8
  simp_all [RegFile.get]

/-- States that agree in every register, the counter, the status, the memory and the capacity are
equal. -/
theorem State.ext_reads {s t : State} (hr : ∀ r, s.readReg r = t.readReg r) (hf : s.fsc = t.fsc)
    (hs : s.status = t.status) (hm : s.mem = t.mem) (hL : s.memSize = t.memSize) : s = t := by
  have : s.regs = t.regs := RegFile.ext_get hr
  cases s; cases t; simp_all

/-- A byte address is backed when it is below the capacity (spec/20_memory.md R52). -/
theorem State.backed_iff {s : State} {a : Word} : s.backed a = true ↔ a.toNat < s.memSize := by
  simp [State.backed]

theorem State.backedWord_iff {s : State} {a : Word} :
    s.backedWord a = true ↔ s.backed a = true ∧ s.backed (a + 1#16) = true := by
  simp [State.backedWord]

section writeReg
variable (s : State) (r r' : Reg) (v w : Word)

theorem State.readReg_writeReg :
    (s.writeReg r v).readReg r' = if r' = r then v else s.readReg r' :=
  RegFile.get_set s.regs r r' v

@[simp] theorem State.readReg_writeReg_same : (s.writeReg r v).readReg r = v := by
  simp [State.readReg_writeReg]

@[simp] theorem State.readReg_writeReg_ne (h : r' ≠ r) :
    (s.writeReg r v).readReg r' = s.readReg r' := by
  simp [State.readReg_writeReg, h]

@[simp] theorem State.writeReg_fsc : (s.writeReg r v).fsc = s.fsc := rfl
@[simp] theorem State.writeReg_status : (s.writeReg r v).status = s.status := rfl
@[simp] theorem State.writeReg_mem : (s.writeReg r v).mem = s.mem := rfl
@[simp] theorem State.writeReg_memSize : (s.writeReg r v).memSize = s.memSize := rfl
@[simp] theorem State.writeReg_backed (x : Word) : (s.writeReg r v).backed x = s.backed x := rfl
@[simp] theorem State.writeReg_backedWord (x : Word) :
    (s.writeReg r v).backedWord x = s.backedWord x := rfl
@[simp] theorem State.writeReg_byteAt (a : Word) : (s.writeReg r v).byteAt a = s.byteAt a := rfl
@[simp] theorem State.writeReg_wordAt (a : Word) : (s.writeReg r v).wordAt a = s.wordAt a := rfl

@[simp] theorem State.writeReg_readReg_self : s.writeReg r (s.readReg r) = s := by
  apply State.ext_reads <;> simp [State.readReg_writeReg]

@[simp] theorem State.writeReg_writeReg_same :
    (s.writeReg r v).writeReg r w = s.writeReg r w := by
  apply State.ext_reads <;> intros <;> simp [State.readReg_writeReg]; split <;> rfl

theorem State.writeReg_comm (h : r ≠ r') :
    (s.writeReg r v).writeReg r' w = (s.writeReg r' w).writeReg r v := by
  apply State.ext_reads <;> intros <;> simp only [State.readReg_writeReg, State.writeReg_fsc,
    State.writeReg_status, State.writeReg_mem, State.writeReg_memSize]
  split <;> split <;> simp_all

end writeReg

section withFsc
variable (s : State) (v w : Word) (r : Reg)

@[simp] theorem State.withFsc_fsc : (s.withFsc v).fsc = v := rfl
@[simp] theorem State.withFsc_readReg : (s.withFsc v).readReg r = s.readReg r := rfl
@[simp] theorem State.withFsc_status : (s.withFsc v).status = s.status := rfl
@[simp] theorem State.withFsc_mem : (s.withFsc v).mem = s.mem := rfl
@[simp] theorem State.withFsc_memSize : (s.withFsc v).memSize = s.memSize := rfl
@[simp] theorem State.withFsc_backed (x : Word) : (s.withFsc v).backed x = s.backed x := rfl
@[simp] theorem State.withFsc_backedWord (x : Word) :
    (s.withFsc v).backedWord x = s.backedWord x := rfl
@[simp] theorem State.withFsc_byteAt (a : Word) : (s.withFsc v).byteAt a = s.byteAt a := rfl
@[simp] theorem State.withFsc_wordAt (a : Word) : (s.withFsc v).wordAt a = s.wordAt a := rfl
@[simp] theorem State.withFsc_withFsc : (s.withFsc v).withFsc w = s.withFsc w := rfl
@[simp] theorem State.withFsc_self : s.withFsc s.fsc = s := rfl

theorem State.withFsc_writeReg : (s.withFsc v).writeReg r w = (s.writeReg r w).withFsc v := rfl

end withFsc

section withMem
variable (s : State) (m : Memory) (r : Reg)

@[simp] theorem State.withMem_mem : (s.withMem m).mem = m := rfl
@[simp] theorem State.withMem_readReg : (s.withMem m).readReg r = s.readReg r := rfl
@[simp] theorem State.withMem_fsc : (s.withMem m).fsc = s.fsc := rfl
@[simp] theorem State.withMem_status : (s.withMem m).status = s.status := rfl
@[simp] theorem State.withMem_memSize : (s.withMem m).memSize = s.memSize := rfl
@[simp] theorem State.withMem_backed (x : Word) : (s.withMem m).backed x = s.backed x := rfl
@[simp] theorem State.withMem_backedWord (x : Word) :
    (s.withMem m).backedWord x = s.backedWord x := rfl

end withMem

section withStatus
variable (s : State) (st : Status) (r : Reg)

@[simp] theorem State.withStatus_status : (s.withStatus st).status = st := rfl
@[simp] theorem State.withStatus_readReg : (s.withStatus st).readReg r = s.readReg r := rfl
@[simp] theorem State.withStatus_fsc : (s.withStatus st).fsc = s.fsc := rfl
@[simp] theorem State.withStatus_mem : (s.withStatus st).mem = s.mem := rfl
@[simp] theorem State.withStatus_memSize : (s.withStatus st).memSize = s.memSize := rfl
@[simp] theorem State.withStatus_backed (x : Word) : (s.withStatus st).backed x = s.backed x := rfl
@[simp] theorem State.withStatus_backedWord (x : Word) :
    (s.withStatus st).backedWord x = s.backedWord x := rfl
@[simp] theorem State.withStatus_byteAt (a : Word) : (s.withStatus st).byteAt a = s.byteAt a := rfl
@[simp] theorem State.withStatus_wordAt (a : Word) : (s.withStatus st).wordAt a = s.wordAt a := rfl

end withStatus

section putWord
variable (s : State) (a v : Word) (r : Reg)

@[simp] theorem State.putWord_readReg : (s.putWord a v).readReg r = s.readReg r := rfl
@[simp] theorem State.putWord_fsc : (s.putWord a v).fsc = s.fsc := rfl
@[simp] theorem State.putWord_status : (s.putWord a v).status = s.status := rfl
@[simp] theorem State.putWord_memSize : (s.putWord a v).memSize = s.memSize := rfl
@[simp] theorem State.putWord_backed (x : Word) : (s.putWord a v).backed x = s.backed x := rfl
@[simp] theorem State.putWord_backedWord (x : Word) :
    (s.putWord a v).backedWord x = s.backedWord x := rfl

end putWord

end Sys2Proof.Machine
end

