-- ==== Sys2Proof/Laws/Memory.lean ====
section
/-! SUPPORT. The memory array: a write is read back, leaves every other byte alone, and keeps the
canonical form; the word view of it. -/

namespace Sys2Proof.Machine

theorem Memory.read_dropCell (m : Memory) (a x : Nat) :
    (m.dropCell a).read x = if x = a then Memory.unlisted else m.read x := by
  induction m with
  | nil => simp [Memory.dropCell, Memory.read]
  | cons c m ih =>
    by_cases hc : c.1 = a
    · have : Memory.dropCell (c :: m) a = Memory.dropCell m a := by simp [Memory.dropCell, hc]
      rw [this, ih]
      by_cases hx : x = a
      · simp [hx]
      · simp [hx, Memory.read, hc, Ne.symm hx]
    · have : Memory.dropCell (c :: m) a = c :: Memory.dropCell m a := by simp [Memory.dropCell, hc]
      rw [this, Memory.read, ih, Memory.read]
      by_cases hx : x = a
      · simp [hx, hc]
      · simp [hx]

theorem Memory.not_mem_dropCell {m : Memory} {a : Nat} {c : Host.Cell} (h : c ∈ m.dropCell a) :
    c ∈ m ∧ c.1 ≠ a := by
  simpa [Memory.dropCell] using h

theorem Memory.read_absent {m : Memory} {a : Nat} (h : ∀ c ∈ m, c.1 ≠ a) :
    m.read a = Memory.unlisted := by
  induction m with
  | nil => rfl
  | cons c m ih =>
    rw [Memory.read, if_neg (h c (by simp))]
    exact ih fun d hd => h d (by simp [hd])

theorem Memory.read_putCell (m : Memory) (a x : Nat) (b : Byte) (h : ∀ c ∈ m, c.1 ≠ a) :
    (m.putCell a b).read x = if x = a then b else m.read x := by
  induction m with
  | nil => simp [Memory.putCell, Memory.read, eq_comm]
  | cons c m ih =>
    unfold Memory.putCell
    split
    · simp only [Memory.read, eq_comm (a := a)]
    · have hc := h c (by simp)
      rw [Memory.read, ih fun d hd => h d (by simp [hd])]
      by_cases hx : x = a
      · subst hx; simp [hc]
      · simp [hx, Memory.read]

/-- Read after write: the written byte at its address, every other byte as before
(spec/20_memory.md R58, R61). -/
theorem Memory.read_write (m : Memory) (a x : Nat) (b : Byte) :
    (m.write a b).read x = if x = a then b else m.read x := by
  unfold Memory.write
  split
  · rename_i h; rw [Memory.read_dropCell, h]
  · rw [Memory.read_putCell _ _ _ _ fun c hc => (Memory.not_mem_dropCell hc).2, Memory.read_dropCell]
    split <;> rfl

theorem Memory.mem_putCell {m : Memory} {a : Nat} {b : Byte} {c : Host.Cell}
    (h : c ∈ m.putCell a b) : c = (a, b) ∨ c ∈ m := by
  induction m with
  | nil => simpa [Memory.putCell] using h
  | cons d m ih =>
    unfold Memory.putCell at h
    split at h
    · exact List.mem_cons.mp h
    · rcases List.mem_cons.mp h with rfl | h
      · simp
      · exact (ih h).imp_right (List.mem_cons_of_mem _)

/-- A cell of the memory after a write is the written one or was there before. -/
theorem Memory.mem_write {m : Memory} {a : Nat} {b : Byte} {c : Host.Cell}
    (h : c ∈ m.write a b) : (c = (a, b) ∧ b ≠ Memory.unlisted) ∨ c ∈ m := by
  unfold Memory.write at h
  split at h
  · exact .inr (Memory.not_mem_dropCell h).1
  · rcases Memory.mem_putCell h with h' | h'
    · exact .inl ⟨h', by assumption⟩
    · exact .inr (Memory.not_mem_dropCell h').1

theorem Memory.pairwise_putCell {m : Memory} {a : Nat} {b : Byte}
    (hm : m.Pairwise fun c d => c.1 < d.1) (ha : ∀ c ∈ m, c.1 ≠ a) :
    (m.putCell a b).Pairwise fun c d => c.1 < d.1 := by
  induction m with
  | nil => simp [Memory.putCell]
  | cons d m ih =>
    obtain ⟨hd, hm'⟩ := List.pairwise_cons.mp hm
    unfold Memory.putCell
    split
    · refine List.pairwise_cons.mpr ⟨fun c hc => ?_, hm⟩
      rcases List.mem_cons.mp hc with rfl | hc
      · assumption
      · exact lt_trans (by assumption) (hd c hc)
    · have := ha d (by simp)
      refine List.pairwise_cons.mpr ⟨fun c hc => ?_, ih hm' fun c hc => ha c (by simp [hc])⟩
      rcases Memory.mem_putCell hc with rfl | hc
      · simp only; omega
      · exact hd c hc

/-- A write keeps the canonical form. -/
theorem Memory.wf_write {m : Memory} (a : Nat) (b : Byte) (hm : m.wf) : (m.write a b).wf := by
  refine ⟨?_, fun c hc => ?_⟩
  · have he : (m.dropCell a).Pairwise fun c d => c.1 < d.1 := hm.1.filter _
    unfold Memory.write
    split
    · exact he
    · exact Memory.pairwise_putCell he fun c hc => (Memory.not_mem_dropCell hc).2
  · rcases Memory.mem_write hc with ⟨rfl, h⟩ | hc
    · exact h
    · exact hm.2 c hc

/-- A write inside the array keeps every listed address inside it. -/
theorem Memory.within_write {m : Memory} {L a : Nat} (b : Byte) (ha : a < L)
    (hm : m.within L) : (m.write a b).within L := by
  intro c hc
  rcases Memory.mem_write hc with ⟨rfl, -⟩ | hc
  · exact ha
  · exact hm c hc

theorem Memory.ofCells_keeps (L : Nat) (cells : List Host.Cell) (m : Memory)
    (h : m.wf ∧ m.within L) :
    Memory.wf (cells.foldl (fun m c => if c.1 < L then Memory.write m c.1 c.2 else m) m) ∧
    Memory.within L
      (cells.foldl (fun m c => if c.1 < L then Memory.write m c.1 c.2 else m) m) := by
  induction cells generalizing m with
  | nil => exact h
  | cons c cells ih =>
    refine ih _ ?_
    dsimp only
    split
    · exact ⟨Memory.wf_write _ _ h.1, Memory.within_write _ (by assumption) h.2⟩
    · exact h

/-- A memory made from a list of cells is canonical and inside the array. -/
theorem Memory.ofCells_wf (L : Nat) (cells : List Host.Cell) :
    (Memory.ofCells L cells).wf ∧ (Memory.ofCells L cells).within L :=
  Memory.ofCells_keeps L cells [] ⟨⟨List.Pairwise.nil, by simp⟩, by simp⟩

/-- The memory of every freshly constructed machine is canonical. -/
theorem State.constructed_mem_wf (L : Nat) :
    (State.constructed L).mem.wf ∧ (State.constructed L).mem.within L :=
  ⟨⟨List.Pairwise.nil, by simp [State.constructed]⟩, by simp [State.constructed]⟩

/-- The memory of the reset state is canonical. -/
theorem State.reset_mem_wf : State.reset.mem.wf := (State.constructed_mem_wf _).1

/-! ## Words -/

theorem toNat_wordOfBytes (h l : Byte) : (wordOfBytes h l).toNat = h.toNat * 256 + l.toNat := by
  simp only [wordOfBytes, BitVec.toNat_append]
  have := l.isLt
  rw [Nat.shiftLeft_eq, Nat.mul_comm, ← Nat.two_pow_add_eq_or_of_lt this, Nat.mul_comm]

theorem toNat_hiByte (v : Word) : (hiByte v).toNat = v.toNat / 256 := by
  have := v.isLt
  simp only [hiByte, BitVec.extractLsb'_toNat, Nat.shiftRight_eq_div_pow]
  omega

theorem toNat_loByte (v : Word) : (loByte v).toNat = v.toNat % 256 := by
  simp [loByte, BitVec.extractLsb'_toNat]

@[simp] theorem hiByte_wordOfBytes (h l : Byte) : hiByte (wordOfBytes h l) = h := by
  apply BitVec.eq_of_toNat_eq
  have := l.isLt
  rw [toNat_hiByte, toNat_wordOfBytes]
  omega

@[simp] theorem loByte_wordOfBytes (h l : Byte) : loByte (wordOfBytes h l) = l := by
  apply BitVec.eq_of_toNat_eq
  have := l.isLt
  rw [toNat_loByte, toNat_wordOfBytes]
  omega

@[simp] theorem wordOfBytes_hiByte_loByte (v : Word) : wordOfBytes (hiByte v) (loByte v) = v := by
  apply BitVec.eq_of_toNat_eq
  rw [toNat_wordOfBytes, toNat_hiByte, toNat_loByte]
  omega

theorem word_ne_succ (a : Word) : a ≠ a + 1#16 := by bv_omega

/-- The byte view of a word written at `a` (spec/20_memory.md R54, R55). -/
theorem State.byteAt_putWord (s : State) (a v x : Word) :
    (s.putWord a v).byteAt x =
      if x = a + 1#16 then loByte v else if x = a then hiByte v else s.byteAt x := by
  simp only [State.byteAt, State.putWord, State.withMem_mem, Memory.read_write,
    BitVec.toNat_inj]

/-- A word written at `a` is read back there (spec/20_memory.md R55). -/
@[simp] theorem State.wordAt_putWord_same (s : State) (a v : Word) :
    (s.putWord a v).wordAt a = v := by
  simp [State.wordAt, State.byteAt_putWord]

/-- A word written at `a` leaves every word alone that shares no byte with it. -/
theorem State.wordAt_putWord_ne (s : State) (a v x : Word) (h0 : x ≠ a) (h1 : x ≠ a + 1#16)
    (h2 : x + 1#16 ≠ a) : (s.putWord a v).wordAt x = s.wordAt x := by
  have h3 : x + 1#16 ≠ a + 1#16 := fun h => h0 (by simpa using h)
  simp [State.wordAt, State.byteAt_putWord, h0, h1, h2, h3]

end Sys2Proof.Machine
end

