-- ==== Sys2Proof/Laws/Ops.lean ====
section
/-! SUPPORT. For each shared operation, once, all it can do: when it answers and with what, and
which fault it raises otherwise. Proofs cite these lemmas instead of unfolding the operation. -/

namespace Sys2Proof.Machine

/-! ## Outcomes -/

@[simp] theorem outcome_ok (s : State) : outcome (.ok s) = .next s := rfl
@[simp] theorem outcome_error (f : Fault) : outcome (.error f) = .fault f := rfl

@[simp] theorem outcome_eq_next {e : Except Fault State} {t : State} :
    outcome e = .next t ↔ e = .ok t := by
  cases e <;> simp [outcome]

@[simp] theorem outcome_eq_fault {e : Except Fault State} {f : Fault} :
    outcome e = .fault f ↔ e = .error f := by
  cases e <;> simp [outcome]

@[simp] theorem outcome_ne_refused (e : Except Fault State) (r : Refusal) :
    outcome e ≠ .refused r := by
  cases e <;> simp [outcome]

/-- A sequence answers exactly when both of its parts do. -/
theorem bind_eq_ok {α β : Type} {e : Except Fault α} {f : α → Except Fault β} {b : β} :
    (e >>= f) = .ok b ↔ ∃ a, e = .ok a ∧ f a = .ok b := by
  cases e <;> simp [bind, Except.bind]

/-- A sequence faults in its first part, or in its second once the first has answered. -/
theorem bind_eq_error {α β : Type} {e : Except Fault α} {f : α → Except Fault β} {x : Fault} :
    (e >>= f) = .error x ↔ e = .error x ∨ ∃ a, e = .ok a ∧ f a = .error x := by
  cases e <;> simp [bind, Except.bind]

@[simp] theorem ok_bind {α β : Type} (a : α) (f : α → Except Fault β) :
    (Except.ok a >>= f) = f a := rfl

@[simp] theorem error_bind {α β : Type} (x : Fault) (f : α → Except Fault β) :
    (Except.error x >>= f) = .error x := rfl

/-! ## Memory accesses -/

/-- The first address of a word that no memory backs, where one is. -/
def State.wordFault (s : State) (a : Word) : Word := if s.backed a then a + 1#16 else a

theorem State.wordFault_unbacked {s : State} {a : Word} (h : s.backedWord a = false) :
    s.backed (s.wordFault a) = false := by
  unfold State.wordFault
  cases h1 : s.backed a <;> simp_all [State.backedWord]

theorem memRead8_eq_ok {a : Word} {s : State} {b : Byte} :
    memRead8 a s = .ok b ↔ s.backed a ∧ s.byteAt a = b := by
  cases h : s.backed a <;> simp [memRead8, h]

theorem memRead8_eq_error {a : Word} {s : State} {f : Fault} :
    memRead8 a s = .error f ↔ s.backed a = false ∧ f = .boundsFault a := by
  cases h : s.backed a <;> simp [memRead8, h]
  exact eq_comm

theorem memRead16_eq_ok {a : Word} {s : State} {v : Word} :
    memRead16 a s = .ok v ↔ s.backedWord a ∧ s.wordAt a = v := by
  cases h : s.backed a <;> cases h' : s.backed (a + 1#16) <;>
    simp [memRead16, State.backedWord, h, h']

theorem memRead16_eq_error {a : Word} {s : State} {f : Fault} :
    memRead16 a s = .error f ↔ s.backedWord a = false ∧ f = .boundsFault (s.wordFault a) := by
  cases h : s.backed a <;> cases h' : s.backed (a + 1#16) <;>
    simp [memRead16, State.backedWord, State.wordFault, h, h'] <;> exact eq_comm

theorem memWrite16_eq_ok {a v : Word} {s t : State} :
    memWrite16 a v s = .ok t ↔ s.backedWord a ∧ t = s.putWord a v := by
  cases h : s.backed a <;> cases h' : s.backed (a + 1#16) <;>
    simp [memWrite16, State.backedWord, h, h']
  exact eq_comm

theorem memWrite16_eq_error {a v : Word} {s : State} {f : Fault} :
    memWrite16 a v s = .error f ↔ s.backedWord a = false ∧ f = .boundsFault (s.wordFault a) := by
  cases h : s.backed a <;> cases h' : s.backed (a + 1#16) <;>
    simp [memWrite16, State.backedWord, State.wordFault, h, h'] <;> exact eq_comm

/-! ## Fetches -/

theorem fetch8_eq_ok {s t : State} {b : Byte} :
    fetch8 s = .ok (b, t) ↔ s.backed (s.readReg .ip) ∧ s.byteAt (s.readReg .ip) = b ∧
      t = s.writeReg .ip (s.readReg .ip + 1#16) := by
  unfold fetch8 advance
  rw [bind_eq_ok]
  constructor
  · rintro ⟨a, h, h'⟩
    obtain ⟨h1, rfl⟩ := memRead8_eq_ok.mp h
    simp only [Except.ok.injEq, Prod.mk.injEq] at h'
    exact ⟨h1, h'.1, h'.2.symm⟩
  · rintro ⟨h1, rfl, rfl⟩
    exact ⟨_, memRead8_eq_ok.mpr ⟨h1, rfl⟩, rfl⟩

theorem fetch8_eq_error {s : State} {f : Fault} :
    fetch8 s = .error f ↔ s.backed (s.readReg .ip) = false ∧ f = .boundsFault (s.readReg .ip) := by
  unfold fetch8
  rw [bind_eq_error, memRead8_eq_error]
  simp

theorem fetch16_eq_ok {s t : State} {v : Word} :
    fetch16 s = .ok (v, t) ↔ s.backedWord (s.readReg .ip) ∧ s.wordAt (s.readReg .ip) = v ∧
      t = s.writeReg .ip (s.readReg .ip + 2#16) := by
  unfold fetch16 advance
  rw [bind_eq_ok]
  constructor
  · rintro ⟨a, h, h'⟩
    obtain ⟨h1, rfl⟩ := memRead16_eq_ok.mp h
    simp only [Except.ok.injEq, Prod.mk.injEq] at h'
    exact ⟨h1, h'.1, h'.2.symm⟩
  · rintro ⟨h1, rfl, rfl⟩
    exact ⟨_, memRead16_eq_ok.mpr ⟨h1, rfl⟩, rfl⟩

theorem fetch16_eq_error {s : State} {f : Fault} :
    fetch16 s = .error f ↔ s.backedWord (s.readReg .ip) = false ∧
      f = .boundsFault (s.wordFault (s.readReg .ip)) := by
  unfold fetch16
  rw [bind_eq_error, memRead16_eq_error]
  simp

/-! ## One push, one pop -/

/-- The state a push of `v` leaves when it does not fault (spec/44_stack.md R140). -/
def State.pushed (s : State) (v : Word) : State :=
  ((s.putWord (s.readReg .sp) v).writeReg .sp (s.readReg .sp - 2#16)).withFsc (s.fsc + 2#16)

/-- The state a pop leaves when it does not fault (spec/44_stack.md R141). -/
def State.popped (s : State) : State :=
  (s.writeReg .sp (s.readReg .sp + 2#16)).withFsc (s.fsc - 2#16)

section
variable (s : State) (v : Word) (r : Reg)

@[simp] theorem State.pushed_sp : (s.pushed v).readReg .sp = s.readReg .sp - 2#16 := by
  simp [State.pushed]
@[simp] theorem State.pushed_readReg (h : r ≠ .sp) : (s.pushed v).readReg r = s.readReg r := by
  simp [State.pushed, h]
@[simp] theorem State.pushed_fsc : (s.pushed v).fsc = s.fsc + 2#16 := rfl
@[simp] theorem State.pushed_status : (s.pushed v).status = s.status := rfl
@[simp] theorem State.pushed_memSize : (s.pushed v).memSize = s.memSize := rfl
@[simp] theorem State.pushed_backed (x : Word) : (s.pushed v).backed x = s.backed x := rfl
@[simp] theorem State.pushed_backedWord (x : Word) : (s.pushed v).backedWord x = s.backedWord x := rfl
@[simp] theorem State.pushed_mem :
    (s.pushed v).mem = (s.putWord (s.readReg .sp) v).mem := rfl
@[simp] theorem State.pushed_byteAt (a : Word) :
    (s.pushed v).byteAt a = (s.putWord (s.readReg .sp) v).byteAt a := rfl
@[simp] theorem State.pushed_wordAt (a : Word) :
    (s.pushed v).wordAt a = (s.putWord (s.readReg .sp) v).wordAt a := rfl

@[simp] theorem State.popped_sp : s.popped.readReg .sp = s.readReg .sp + 2#16 := by
  simp [State.popped]
@[simp] theorem State.popped_readReg (h : r ≠ .sp) : s.popped.readReg r = s.readReg r := by
  simp [State.popped, h]
@[simp] theorem State.popped_fsc : s.popped.fsc = s.fsc - 2#16 := rfl
@[simp] theorem State.popped_status : s.popped.status = s.status := rfl
@[simp] theorem State.popped_memSize : s.popped.memSize = s.memSize := rfl
@[simp] theorem State.popped_backed (x : Word) : s.popped.backed x = s.backed x := rfl
@[simp] theorem State.popped_backedWord (x : Word) : s.popped.backedWord x = s.backedWord x := rfl
@[simp] theorem State.popped_mem : s.popped.mem = s.mem := rfl
@[simp] theorem State.popped_byteAt (a : Word) : s.popped.byteAt a = s.byteAt a := rfl
@[simp] theorem State.popped_wordAt (a : Word) : s.popped.wordAt a = s.wordAt a := rfl

end

theorem push_eq_ok {s t : State} {v : Word} :
    push v s = .ok t ↔ s.backedWord (s.readReg .sp) ∧ t = s.pushed v := by
  unfold push
  rw [bind_eq_ok]
  constructor
  · rintro ⟨u, h, h'⟩
    obtain ⟨h1, rfl⟩ := memWrite16_eq_ok.mp h
    exact ⟨h1, (Except.ok.inj h').symm⟩
  · rintro ⟨h1, rfl⟩
    exact ⟨_, memWrite16_eq_ok.mpr ⟨h1, rfl⟩, rfl⟩

theorem push_eq_error {s : State} {v : Word} {f : Fault} :
    push v s = .error f ↔ s.backedWord (s.readReg .sp) = false ∧
      f = .boundsFault (s.wordFault (s.readReg .sp)) := by
  unfold push
  rw [bind_eq_error, memWrite16_eq_error]
  simp

theorem pop_eq_ok {s t : State} {v : Word} :
    pop s = .ok (v, t) ↔ s.backedWord (s.readReg .sp + 2#16) ∧
      s.wordAt (s.readReg .sp + 2#16) = v ∧ t = s.popped := by
  unfold pop
  simp only []
  rw [bind_eq_ok]
  constructor
  · rintro ⟨w, h, h'⟩
    obtain ⟨h1, h2⟩ := memRead16_eq_ok.mp h
    simp only [Except.ok.injEq, Prod.mk.injEq] at h'
    obtain ⟨rfl, rfl⟩ := h'
    exact ⟨by simpa using h1, by simpa using h2, rfl⟩
  · rintro ⟨h1, rfl, rfl⟩
    exact ⟨_, memRead16_eq_ok.mpr ⟨by simpa using h1, by simp⟩, rfl⟩

theorem pop_eq_error {s : State} {f : Fault} :
    pop s = .error f ↔ s.backedWord (s.readReg .sp + 2#16) = false ∧
      f = .boundsFault (s.wordFault (s.readReg .sp + 2#16)) := by
  unfold pop
  simp only []
  rw [bind_eq_error, memRead16_eq_error]
  simp [State.wordFault]

end Sys2Proof.Machine
end

