-- ==== Sys2Proof/Laws/Stack.lean ====
section
/-! SUPPORT. Sequences of pushes and pops (spec/44_stack.md R147): when they answer, the state they
leave, and the first fault. The `k`-th word of a sequence that starts at `a` lies at `a - 2k` going
down and at `a + 2k` going up. -/

namespace Sys2Proof.Machine

/-- The address `2k` below `a`. -/
def wordsBelow (a : Word) (k : Nat) : Word := a - BitVec.ofNat 16 (2 * k)

/-- The address `2k` above `a`. -/
def wordsAbove (a : Word) (k : Nat) : Word := a + BitVec.ofNat 16 (2 * k)

@[simp] theorem wordsBelow_zero (a : Word) : wordsBelow a 0 = a := by simp [wordsBelow]
@[simp] theorem wordsAbove_zero (a : Word) : wordsAbove a 0 = a := by simp [wordsAbove]

theorem wordsBelow_succ (a : Word) (k : Nat) : wordsBelow (a - 2#16) k = wordsBelow a (k + 1) := by
  apply BitVec.eq_of_toNat_eq
  simp only [wordsBelow, BitVec.toNat_sub, BitVec.toNat_ofNat]
  omega

theorem wordsAbove_succ (a : Word) (k : Nat) : wordsAbove (a + 2#16) k = wordsAbove a (k + 1) := by
  apply BitVec.eq_of_toNat_eq
  simp only [wordsAbove, BitVec.toNat_add, BitVec.toNat_ofNat]
  omega

theorem wordsAbove_one (a : Word) : a + 2#16 = wordsAbove a 1 := rfl

theorem wordsAbove_add (a : Word) (j k : Nat) :
    wordsAbove (wordsAbove a j) k = wordsAbove a (j + k) := by
  apply BitVec.eq_of_toNat_eq
  simp only [wordsAbove, BitVec.toNat_add, BitVec.toNat_ofNat]
  omega

theorem wordsBelow_add (a : Word) (j k : Nat) :
    wordsBelow (wordsBelow a j) k = wordsBelow a (j + k) := by
  apply BitVec.eq_of_toNat_eq
  simp only [wordsBelow, BitVec.toNat_sub, BitVec.toNat_ofNat]
  omega

/-- Going up past as many words as one came down, and one further up for each fewer. -/
theorem wordsAbove_wordsBelow (a : Word) {j k : Nat} (h : j ≤ k) :
    wordsAbove (wordsBelow a k) j = wordsBelow a (k - j) := by
  apply BitVec.eq_of_toNat_eq
  simp only [wordsAbove, wordsBelow, BitVec.toNat_add, BitVec.toNat_sub, BitVec.toNat_ofNat]
  omega

/-- Words `2j` and `2k` below the same address are apart for different `j`, `k` up to 32767. -/
theorem wordsBelow_apart {a : Word} {j k : Nat} (hj : j < 32768) (hk : k < 32768) (h : j ≠ k) :
    wordsBelow a j ≠ wordsBelow a k ∧ wordsBelow a j ≠ wordsBelow a k + 1#16 ∧
      wordsBelow a j + 1#16 ≠ wordsBelow a k := by
  refine ⟨?_, ?_, ?_⟩ <;> intro he <;> have he := congrArg BitVec.toNat he <;>
    simp only [wordsBelow, BitVec.toNat_sub, BitVec.toNat_add, BitVec.toNat_ofNat] at he <;>
    omega

/-! ## Sequences of pushes -/

/-- The state the pushes leave when none faults. -/
def State.pushedWords (s : State) : List Word → State
  | [] => s
  | v :: vs => (s.pushed v).pushedWords vs

/-- The pushes answer exactly when every word's place has memory. -/
theorem pushWords_eq_ok {vs : List Word} {s t : State} :
    pushWords vs s = .ok t ↔
      (∀ k < vs.length, s.backedWord (wordsBelow (s.readReg .sp) k)) ∧
        t = s.pushedWords vs := by
  induction vs generalizing s with
  | nil => simp [pushWords, State.pushedWords]; exact eq_comm
  | cons v vs ih =>
    rw [pushWords, bind_eq_ok]
    simp only [push_eq_ok, State.pushedWords, List.length_cons]
    constructor
    · rintro ⟨u, ⟨h0, rfl⟩, h⟩
      obtain ⟨h1, rfl⟩ := ih.mp h
      refine ⟨fun k hk => ?_, rfl⟩
      cases k with
      | zero => simpa using h0
      | succ k => simpa [wordsBelow_succ] using h1 k (by omega)
    · rintro ⟨h, rfl⟩
      refine ⟨_, ⟨by simpa using h 0 (by omega), rfl⟩, ih.mpr ⟨fun k hk => ?_, rfl⟩⟩
      simpa [wordsBelow_succ] using h (k + 1) (by omega)

/-- The pushes fault at the first word whose place has no memory. -/
theorem pushWords_eq_error {vs : List Word} {s : State} {f : Fault} :
    pushWords vs s = .error f ↔
      ∃ k < vs.length, (∀ j < k, s.backedWord (wordsBelow (s.readReg .sp) j)) ∧
        s.backedWord (wordsBelow (s.readReg .sp) k) = false ∧
        f = .boundsFault (s.wordFault (wordsBelow (s.readReg .sp) k)) := by
  induction vs generalizing s with
  | nil => simp [pushWords]
  | cons v vs ih =>
    rw [pushWords, bind_eq_error, push_eq_error]
    simp only [push_eq_ok, List.length_cons]
    constructor
    · rintro (⟨h, rfl⟩ | ⟨u, ⟨h0, rfl⟩, h⟩)
      · exact ⟨0, by omega, by simp, by simpa using h, by simp⟩
      · obtain ⟨k, hk, h1, h2, rfl⟩ := ih.mp h
        simp only [State.pushed_sp, State.pushed_backedWord, wordsBelow_succ] at h1 h2
        refine ⟨k + 1, by omega, fun j hj => ?_, h2, ?_⟩
        · cases j with
          | zero => simpa using h0
          | succ j => exact h1 j (by omega)
        · simp [wordsBelow_succ, State.wordFault]
    · rintro ⟨k, hk, h1, h2, rfl⟩
      cases k with
      | zero => exact .inl ⟨by simpa using h2, by simp⟩
      | succ k =>
        refine .inr ⟨_, ⟨by simpa using h1 0 (by omega), rfl⟩,
          ih.mpr ⟨k, by omega, fun j hj => ?_, ?_, ?_⟩⟩
        · simpa [wordsBelow_succ] using h1 (j + 1) (by omega)
        · simpa [wordsBelow_succ] using h2
        · simp [wordsBelow_succ, State.wordFault]

@[simp] theorem State.pushedWords_sp (s : State) (vs : List Word) :
    (s.pushedWords vs).readReg .sp = wordsBelow (s.readReg .sp) vs.length := by
  induction vs generalizing s with
  | nil => simp [State.pushedWords]
  | cons v vs ih => simp [State.pushedWords, ih, wordsBelow_succ]

@[simp] theorem State.pushedWords_fsc (s : State) (vs : List Word) :
    (s.pushedWords vs).fsc = wordsAbove s.fsc vs.length := by
  induction vs generalizing s with
  | nil => simp [State.pushedWords]
  | cons v vs ih => simp [State.pushedWords, ih, wordsAbove_succ]

@[simp] theorem State.pushedWords_readReg (s : State) (vs : List Word) (r : Reg) (h : r ≠ .sp) :
    (s.pushedWords vs).readReg r = s.readReg r := by
  induction vs generalizing s with
  | nil => rfl
  | cons v vs ih => simp [State.pushedWords, ih, h]

@[simp] theorem State.pushedWords_status (s : State) (vs : List Word) :
    (s.pushedWords vs).status = s.status := by
  induction vs generalizing s with
  | nil => rfl
  | cons v vs ih => simp [State.pushedWords, ih]

@[simp] theorem State.pushedWords_memSize (s : State) (vs : List Word) :
    (s.pushedWords vs).memSize = s.memSize := by
  induction vs generalizing s with
  | nil => rfl
  | cons v vs ih => simp [State.pushedWords, ih]

@[simp] theorem State.pushedWords_backedWord (s : State) (vs : List Word) (a : Word) :
    (s.pushedWords vs).backedWord a = s.backedWord a := by
  simp [State.backedWord, State.backed]

/-- The pushes change no byte outside their own words. -/
theorem State.pushedWords_byteAt (s : State) (vs : List Word) (x : Word)
    (h : ∀ k < vs.length, x ≠ wordsBelow (s.readReg .sp) k ∧
      x ≠ wordsBelow (s.readReg .sp) k + 1#16) :
    (s.pushedWords vs).byteAt x = s.byteAt x := by
  induction vs generalizing s with
  | nil => rfl
  | cons v vs ih =>
    have h0 := h 0 (by simp)
    simp only [wordsBelow_zero] at h0
    rw [State.pushedWords, ih]
    · simp [State.byteAt_putWord, h0]
    · intro k hk
      simpa [wordsBelow_succ] using h (k + 1) (by simpa using hk)

/-- The pushes change no word apart from their own. -/
theorem State.pushedWords_wordAt (s : State) (vs : List Word) (x : Word)
    (h : ∀ k < vs.length, x ≠ wordsBelow (s.readReg .sp) k ∧
      x ≠ wordsBelow (s.readReg .sp) k + 1#16 ∧ x + 1#16 ≠ wordsBelow (s.readReg .sp) k) :
    (s.pushedWords vs).wordAt x = s.wordAt x := by
  unfold State.wordAt
  rw [State.pushedWords_byteAt, State.pushedWords_byteAt]
  · intro k hk
    exact ⟨(h k hk).2.2, fun he => (h k hk).1 (by simpa using he)⟩
  · intro k hk
    exact ⟨(h k hk).1, (h k hk).2.1⟩

/-- The `k`-th pushed word lies `2k` below the first: at most 32768 words fill the address space
once. -/
theorem State.pushedWords_wordAt_pushed (s : State) (vs : List Word) (hl : vs.length ≤ 32768)
    (k : Nat) (hk : k < vs.length) :
    (s.pushedWords vs).wordAt (wordsBelow (s.readReg .sp) k) = vs[k] := by
  induction vs generalizing s k with
  | nil => simp at hk
  | cons v vs ih =>
    simp only [List.length_cons] at hl hk
    cases k with
    | zero =>
      rw [State.pushedWords, State.pushedWords_wordAt]
      · simp
      · intro k hk
        simp only [State.pushed_sp, wordsBelow_succ]
        exact wordsBelow_apart (by omega) (by omega) (by omega)
    | succ k =>
      rw [State.pushedWords, ← wordsBelow_succ]
      have := ih (s.pushed v) (by omega) k (by omega)
      rw [State.pushed_sp] at this
      rw [this]
      rfl

/-! ## Sequences of pops -/

/-- The state `n` pops leave when none faults: only SP and the counter have changed. -/
def State.poppedWords (s : State) (n : Nat) : State :=
  (s.writeReg .sp (wordsAbove (s.readReg .sp) n)).withFsc (wordsBelow s.fsc n)

section
variable (s : State) (n : Nat) (r : Reg) (a : Word)

@[simp] theorem State.poppedWords_zero : s.poppedWords 0 = s := by
  simp [State.poppedWords]

theorem State.popped_poppedWords : s.popped.poppedWords n = s.poppedWords (n + 1) := by
  simp only [State.poppedWords, State.popped_sp, State.popped_fsc, wordsAbove_succ, wordsBelow_succ]
  simp [State.popped, State.withFsc_writeReg]

theorem State.popped_eq : s.popped = s.poppedWords 1 := by
  rw [← State.popped_poppedWords, State.poppedWords_zero]

@[simp] theorem State.poppedWords_sp :
    (s.poppedWords n).readReg .sp = wordsAbove (s.readReg .sp) n := by
  simp [State.poppedWords]
@[simp] theorem State.poppedWords_readReg (h : r ≠ .sp) :
    (s.poppedWords n).readReg r = s.readReg r := by
  simp [State.poppedWords, h]
@[simp] theorem State.poppedWords_fsc : (s.poppedWords n).fsc = wordsBelow s.fsc n := rfl
@[simp] theorem State.poppedWords_status : (s.poppedWords n).status = s.status := rfl
@[simp] theorem State.poppedWords_mem : (s.poppedWords n).mem = s.mem := rfl
@[simp] theorem State.poppedWords_memSize : (s.poppedWords n).memSize = s.memSize := rfl
@[simp] theorem State.poppedWords_wordAt : (s.poppedWords n).wordAt a = s.wordAt a := rfl
@[simp] theorem State.poppedWords_backedWord :
    (s.poppedWords n).backedWord a = s.backedWord a := rfl

end

/-- The pops answer exactly when every word read has memory; they give the words going up. -/
theorem popWords_eq_ok {n : Nat} {s t : State} {vs : List Word} :
    popWords n s = .ok (vs, t) ↔
      (∀ k < n, s.backedWord (wordsAbove (s.readReg .sp) (k + 1))) ∧
        vs = (List.range n).map (fun k => s.wordAt (wordsAbove (s.readReg .sp) (k + 1))) ∧
        t = s.poppedWords n := by
  induction n generalizing s t vs with
  | zero => simp [popWords]; grind
  | succ n ih =>
    rw [popWords, bind_eq_ok]
    constructor
    · rintro ⟨⟨v, u⟩, h, h'⟩
      obtain ⟨h0, rfl, rfl⟩ := pop_eq_ok.mp h
      obtain ⟨⟨ws, t'⟩, h1, h2⟩ := bind_eq_ok.mp h'
      obtain ⟨h3, rfl, rfl⟩ := ih.mp h1
      simp only [Except.ok.injEq, Prod.mk.injEq] at h2
      obtain ⟨rfl, rfl⟩ := h2
      refine ⟨fun k hk => ?_, ?_, State.popped_poppedWords s n⟩
      · cases k with
        | zero => simpa [← wordsAbove_one] using h0
        | succ k => simpa [wordsAbove_succ] using h3 k (by omega)
      · rw [List.range_succ_eq_map]
        simp [wordsAbove_succ, ← wordsAbove_one]
    · rintro ⟨h, rfl, rfl⟩
      refine ⟨(_, _), pop_eq_ok.mpr ⟨by simpa [← wordsAbove_one] using h 0 (by omega), rfl, rfl⟩, ?_⟩
      refine bind_eq_ok.mpr ⟨(_, _), ih.mpr ⟨fun k hk => ?_, rfl, rfl⟩, ?_⟩
      · simpa [wordsAbove_succ] using h (k + 1) (by omega)
      · rw [State.popped_poppedWords, List.range_succ_eq_map]
        simp [wordsAbove_succ, ← wordsAbove_one]

/-- The discarding pops answer exactly when every word read has memory. -/
theorem discard_eq_ok {n : Nat} {s t : State} :
    discard n s = .ok t ↔
      (∀ k < n, s.backedWord (wordsAbove (s.readReg .sp) (k + 1))) ∧ t = s.poppedWords n := by
  induction n generalizing s with
  | zero => simp [discard]; exact eq_comm
  | succ n ih =>
    rw [discard, bind_eq_ok]
    constructor
    · rintro ⟨⟨v, u⟩, h, h'⟩
      obtain ⟨h0, rfl, rfl⟩ := pop_eq_ok.mp h
      obtain ⟨h3, rfl⟩ := ih.mp h'
      refine ⟨fun k hk => ?_, State.popped_poppedWords s n⟩
      cases k with
      | zero => simpa [← wordsAbove_one] using h0
      | succ k => simpa [wordsAbove_succ] using h3 k (by omega)
    · rintro ⟨h, rfl⟩
      refine ⟨(_, _), pop_eq_ok.mpr ⟨by simpa [← wordsAbove_one] using h 0 (by omega), rfl, rfl⟩, ?_⟩
      refine ih.mpr ⟨fun k hk => ?_, (State.popped_poppedWords s n).symm⟩
      simpa [wordsAbove_succ] using h (k + 1) (by omega)

/-- The discarding pops fault at the first word read that has no memory. -/
theorem discard_eq_error {n : Nat} {s : State} {f : Fault} :
    discard n s = .error f ↔
      ∃ k < n, (∀ j < k, s.backedWord (wordsAbove (s.readReg .sp) (j + 1))) ∧
        s.backedWord (wordsAbove (s.readReg .sp) (k + 1)) = false ∧
        f = .boundsFault (s.wordFault (wordsAbove (s.readReg .sp) (k + 1))) := by
  induction n generalizing s with
  | zero => simp [discard]
  | succ n ih =>
    rw [discard, bind_eq_error, pop_eq_error]
    constructor
    · rintro (⟨h, rfl⟩ | ⟨⟨v, u⟩, h0, h⟩)
      · exact ⟨0, by omega, by simp, by simpa [← wordsAbove_one] using h,
          by simp [← wordsAbove_one]⟩
      · obtain ⟨hb, rfl, rfl⟩ := pop_eq_ok.mp h0
        obtain ⟨k, hk, h1, h2, rfl⟩ := ih.mp h
        simp only [State.popped_sp, State.popped_backedWord, wordsAbove_succ] at h1 h2
        refine ⟨k + 1, by omega, fun j hj => ?_, h2, ?_⟩
        · cases j with
          | zero => simpa [← wordsAbove_one] using hb
          | succ j => exact h1 j (by omega)
        · simp [wordsAbove_succ, State.wordFault]
    · rintro ⟨k, hk, h1, h2, rfl⟩
      cases k with
      | zero =>
        exact .inl ⟨by simpa [← wordsAbove_one] using h2, by simp [← wordsAbove_one]⟩
      | succ k =>
        refine .inr ⟨(_, _), pop_eq_ok.mpr
          ⟨by simpa [← wordsAbove_one] using h1 0 (by omega), rfl, rfl⟩,
          ih.mpr ⟨k, by omega, fun j hj => ?_, ?_, ?_⟩⟩
        · simpa [wordsAbove_succ] using h1 (j + 1) (by omega)
        · simpa [wordsAbove_succ] using h2
        · simp [wordsAbove_succ, State.wordFault]

end Sys2Proof.Machine
end

