-- ==== Sys2Proof/Laws/Call.lean ====
section
/-! SUPPORT. State-save and state-restore (spec/45_call_return.md R161, R162): when they answer, the
state they leave, and the first fault of each. -/

namespace Sys2Proof.Machine

/-! ## State-save -/

theorem pushWords_append (vs ws : List Word) (s : State) :
    pushWords (vs ++ ws) s = pushWords vs s >>= pushWords ws := by
  induction vs generalizing s with
  | nil => rfl
  | cons v vs ih =>
    simp only [List.cons_append, pushWords]
    cases push v s with
    | error f => rfl
    | ok t => simp [ih]

/-- Pushing registers other than SP is pushing the values they have at the start. -/
theorem pushRegs_eq_pushWords (rs : List Reg) (s : State) (h : Reg.sp ∉ rs) :
    pushRegs rs s = pushWords (rs.map s.readReg) s := by
  induction rs generalizing s with
  | nil => rfl
  | cons r rs ih =>
    simp only [List.mem_cons, not_or] at h
    simp only [pushRegs, List.map_cons, pushWords]
    cases hp : push (s.readReg r) s with
    | error f => rfl
    | ok t =>
      obtain ⟨-, rfl⟩ := push_eq_ok.mp hp
      simp only [ok_bind]
      rw [ih _ h.2]
      congr 1
      apply List.map_congr_left
      intro x hx
      exact State.pushed_readReg _ _ _ fun hs => h.2 (hs ▸ hx)

/-- The ten words of a frame in the order pushed (spec/45_call_return.md R164). -/
def State.frameWords (s : State) : List Word :=
  generalRegs.map s.readReg ++ [s.readReg .ip, s.fsc + 20#16]

/-- The state state-save leaves when it does not fault. -/
def State.saved (s : State) : State :=
  ((s.pushedWords s.frameWords).writeReg .fp (wordsBelow (s.readReg .sp) 10)).withFsc 0#16

theorem saveState_eq (s : State) :
    saveState s = pushWords s.frameWords s >>= fun t =>
      .ok ((t.writeReg .fp (t.readReg .sp)).withFsc 0#16) := by
  unfold saveState State.frameWords
  rw [pushRegs_eq_pushWords _ _ (by decide), pushWords_append]
  cases h : pushWords (generalRegs.map s.readReg) s with
  | error f => rfl
  | ok t =>
    obtain ⟨-, rfl⟩ := pushWords_eq_ok.mp h
    simp only [ok_bind, pushWords, State.pushedWords_readReg s _ .ip (by decide)]
    cases h2 : push (s.readReg .ip) (s.pushedWords (generalRegs.map s.readReg)) with
    | error f => rfl
    | ok u =>
      obtain ⟨-, rfl⟩ := push_eq_ok.mp h2
      have : wordsAbove s.fsc 8 + 2#16 + 2#16 = s.fsc + 20#16 := by
        simp only [wordsAbove]; bv_omega
      simp only [ok_bind, State.pushed_fsc, State.pushedWords_fsc, List.length_map,
        show generalRegs.length = 8 from rfl, this]
      cases push (s.fsc + 20#16) _ <;> rfl

@[simp] theorem State.frameWords_length (s : State) : s.frameWords.length = 10 := rfl

/-- State-save answers exactly when its ten places have memory. -/
theorem saveState_eq_ok {s t : State} :
    saveState s = .ok t ↔
      (∀ k < 10, s.backedWord (wordsBelow (s.readReg .sp) k)) ∧ t = s.saved := by
  rw [saveState_eq, bind_eq_ok]
  constructor
  · rintro ⟨u, h, h'⟩
    obtain ⟨h1, rfl⟩ := pushWords_eq_ok.mp h
    refine ⟨h1, ?_⟩
    simpa [State.saved] using h'.symm
  · rintro ⟨h, rfl⟩
    exact ⟨_, pushWords_eq_ok.mpr ⟨h, rfl⟩, by simp [State.saved]⟩

/-- State-save faults at the first of its ten places without memory. -/
theorem saveState_eq_error {s : State} {f : Fault} :
    saveState s = .error f ↔
      ∃ k < 10, (∀ j < k, s.backedWord (wordsBelow (s.readReg .sp) j)) ∧
        s.backedWord (wordsBelow (s.readReg .sp) k) = false ∧
        f = .boundsFault (s.wordFault (wordsBelow (s.readReg .sp) k)) := by
  rw [saveState_eq, bind_eq_error, pushWords_eq_error]
  simp

section
variable (s : State)

@[simp] theorem State.saved_sp : s.saved.readReg .sp = wordsBelow (s.readReg .sp) 10 := by
  simp [State.saved]
@[simp] theorem State.saved_fp : s.saved.readReg .fp = wordsBelow (s.readReg .sp) 10 := by
  simp [State.saved]
@[simp] theorem State.saved_readReg (r : Reg) (h1 : r ≠ .sp) (h2 : r ≠ .fp) :
    s.saved.readReg r = s.readReg r := by
  simp [State.saved, h1, h2]
@[simp] theorem State.saved_fsc : s.saved.fsc = 0#16 := rfl
@[simp] theorem State.saved_status : s.saved.status = s.status := by simp [State.saved]
@[simp] theorem State.saved_memSize : s.saved.memSize = s.memSize := by simp [State.saved]
@[simp] theorem State.saved_backedWord (a : Word) : s.saved.backedWord a = s.backedWord a := by
  simp [State.saved]

/-- The frame in memory after state-save: the `k`-th word pushed lies `2k` below the old SP. -/
theorem State.saved_wordAt (k : Nat) (hk : k < 10) :
    s.saved.wordAt (wordsBelow (s.readReg .sp) k) = s.frameWords[k] := by
  simp only [State.saved, State.withFsc_wordAt, State.writeReg_wordAt]
  exact State.pushedWords_wordAt_pushed s _ (by simp) k (by simpa using hk)

/-- State-save changes no byte outside the ten words of the frame. -/
theorem State.saved_byteAt (x : Word)
    (h : ∀ k < 10, x ≠ wordsBelow (s.readReg .sp) k ∧
      x ≠ wordsBelow (s.readReg .sp) k + 1#16) : s.saved.byteAt x = s.byteAt x := by
  simp only [State.saved, State.withFsc_byteAt, State.writeReg_byteAt]
  exact State.pushedWords_byteAt s _ x (by simpa using h)

end

/-! ## State-restore -/

/-- The state with the listed registers loaded from the words from `a` up. -/
def State.loadRegs (s : State) : List Reg → Word → State
  | [], _ => s
  | r :: rs, a => (s.writeReg r (s.wordAt a)).loadRegs rs (a + 2#16)

section
variable (s : State) (rs : List Reg) (a : Word)

@[simp] theorem State.loadRegs_fsc : (s.loadRegs rs a).fsc = s.fsc := by
  induction rs generalizing s a with
  | nil => rfl
  | cons r rs ih => simp [State.loadRegs, ih]
@[simp] theorem State.loadRegs_status : (s.loadRegs rs a).status = s.status := by
  induction rs generalizing s a with
  | nil => rfl
  | cons r rs ih => simp [State.loadRegs, ih]
@[simp] theorem State.loadRegs_mem : (s.loadRegs rs a).mem = s.mem := by
  induction rs generalizing s a with
  | nil => rfl
  | cons r rs ih => simp [State.loadRegs, ih]
@[simp] theorem State.loadRegs_memSize : (s.loadRegs rs a).memSize = s.memSize := by
  induction rs generalizing s a with
  | nil => rfl
  | cons r rs ih => simp [State.loadRegs, ih]
@[simp] theorem State.loadRegs_readReg_ne (r : Reg) (h : r ∉ rs) :
    (s.loadRegs rs a).readReg r = s.readReg r := by
  induction rs generalizing s a with
  | nil => rfl
  | cons r' rs ih =>
    simp only [List.mem_cons, not_or] at h
    simp [State.loadRegs, ih _ _ h.2, h.1]

end

theorem State.writeReg_poppedWords (s : State) (r : Reg) (v : Word) (n : Nat) (h : Reg.sp ≠ r) :
    (s.writeReg r v).poppedWords n = (s.poppedWords n).writeReg r v := by
  simp only [State.poppedWords, State.writeReg_fsc, State.withFsc_writeReg]
  rw [State.writeReg_comm _ _ _ _ _ h, State.readReg_writeReg_ne _ _ _ _ h]

/-- The argument count a Ret finds: the eleventh word above FP (spec/45_call_return.md R162
step 5). -/
def State.argCount (s : State) : Nat := (s.wordAt (wordsAbove (s.readReg .fp) 11)).toNat

/-- The counter a Ret leaves: the saved word less the pops of steps 3 to 5. -/
def State.restoredFsc (s : State) : Word :=
  wordsBelow (s.wordAt (wordsAbove (s.readReg .fp) 1)) (10 + s.argCount)

/-- The state state-restore leaves when it does not fault. -/
def State.restored (s : State) : State :=
  (((s.loadRegs (.ip :: generalRegs.reverse) (wordsAbove (s.readReg .fp) 2)).writeReg .sp
    (wordsAbove (s.readReg .fp) (11 + s.argCount))).withFsc s.restoredFsc).writeReg .fp
      (s.readReg .fp + s.restoredFsc)

section
variable (s : State)

@[simp] theorem State.restored_sp :
    s.restored.readReg .sp = wordsAbove (s.readReg .fp) (11 + s.argCount) := by
  simp [State.restored]
@[simp] theorem State.restored_fp :
    s.restored.readReg .fp = s.readReg .fp + s.restoredFsc := by
  simp [State.restored]
@[simp] theorem State.restored_fsc : s.restored.fsc = s.restoredFsc := rfl
@[simp] theorem State.restored_mem : s.restored.mem = s.mem := by simp [State.restored]
@[simp] theorem State.restored_status : s.restored.status = s.status := by simp [State.restored]
@[simp] theorem State.restored_memSize : s.restored.memSize = s.memSize := by
  simp [State.restored]
@[simp] theorem State.restored_acc : s.restored.readReg .acc = s.readReg .acc := by
  simp [State.restored, generalRegs]
@[simp] theorem State.restored_ip :
    s.restored.readReg .ip = s.wordAt (wordsAbove (s.readReg .fp) 2) := by
  simp [State.restored, State.loadRegs, generalRegs]

/-- The `k`-th general register, R1 being 0, comes from the word `10 - k` places above FP. -/
theorem State.restored_general (k : Nat) (hk : k < 8) :
    s.restored.readReg generalRegs[k] = s.wordAt (wordsAbove (s.readReg .fp) (10 - k)) := by
  simp only [State.restored, State.loadRegs, generalRegs, List.reverse_cons, List.reverse_nil,
    List.nil_append, List.cons_append, wordsAbove]
  have : k = 0 ∨ k = 1 ∨ k = 2 ∨ k = 3 ∨ k = 4 ∨ k = 5 ∨ k = 6 ∨ k = 7 := by omega
  rcases this with rfl | rfl | rfl | rfl | rfl | rfl | rfl | rfl <;>
    simp [BitVec.add_assoc]

end

/-! ### A run of pops: all its words have memory, or the first that has none faults -/

/-- `e` is what `m` pops going up from `a` come to: the value `v` when every word has memory, and
otherwise the fault of the first that has none. -/
def PopsWords {β : Type} (s : State) (a : Word) (m : Nat) (e : Except Fault β) (v : β) : Prop :=
  ((∀ k < m, s.backedWord (wordsAbove a (k + 1)) = true) ∧ e = .ok v) ∨
    ∃ k < m, (∀ j < k, s.backedWord (wordsAbove a (j + 1)) = true) ∧
      s.backedWord (wordsAbove a (k + 1)) = false ∧
      e = .error (.boundsFault (s.wordFault (wordsAbove a (k + 1))))

theorem PopsWords.of_memSize {β : Type} {s t : State} {a : Word} {m : Nat} {e : Except Fault β}
    {v : β} (h : PopsWords s a m e v) (ht : s.memSize = t.memSize) : PopsWords t a m e v := by
  have hb : ∀ x, s.backedWord x = t.backedWord x := by
    intro x; simp only [State.backedWord, State.backed, ht]
  have hf : ∀ x, s.wordFault x = t.wordFault x := by
    intro x; unfold State.wordFault State.backed; rw [ht]
  simpa only [PopsWords, hb, hf] using h

theorem PopsWords.bind {β γ : Type} {s : State} {a : Word} {m n : Nat} {e : Except Fault β} {v : β}
    {f : β → Except Fault γ} {w : γ} (h : PopsWords s a m e v)
    (h' : PopsWords s (wordsAbove a m) n (f v) w) : PopsWords s a (m + n) (e >>= f) w := by
  rcases h with ⟨ha, rfl⟩ | ⟨k, hk, ha, hb, rfl⟩
  · rw [ok_bind]
    have split : ∀ k, (∀ j < k, s.backedWord (wordsAbove (wordsAbove a m) (j + 1)) = true) →
        ∀ j < m + k, s.backedWord (wordsAbove a (j + 1)) = true := by
      intro k hk j hj
      by_cases hjm : j < m
      · exact ha j hjm
      · have := hk (j - m) (by omega)
        rwa [wordsAbove_add, show m + (j - m + 1) = j + 1 by omega] at this
    rcases h' with ⟨hc, he⟩ | ⟨k, hk, hc, hd, he⟩
    · exact .inl ⟨split n hc, he⟩
    · rw [wordsAbove_add, show m + (k + 1) = m + k + 1 by omega] at hd he
      exact .inr ⟨m + k, by omega, split k hc, hd, he⟩
  · exact .inr ⟨k, by omega, ha, hb, rfl⟩

theorem PopsWords.map {β γ : Type} {s : State} {a : Word} {m : Nat} {e : Except Fault β} {v : β}
    (h : PopsWords s a m e v) (f : β → γ) : PopsWords s a m (e >>= fun x => .ok (f x)) (f v) := by
  rcases h with ⟨ha, rfl⟩ | ⟨k, hk, ha, hb, rfl⟩
  · exact .inl ⟨ha, rfl⟩
  · exact .inr ⟨k, hk, ha, hb, rfl⟩

theorem pop_popsWords (s : State) :
    PopsWords s (s.readReg .sp) 1 (pop s) (s.wordAt (s.readReg .sp + 2#16), s.popped) := by
  cases h : s.backedWord (s.readReg .sp + 2#16)
  · refine .inr ⟨0, by omega, by simp, ?_, ?_⟩
    · rwa [← wordsAbove_one]
    · rw [← wordsAbove_one]; exact pop_eq_error.mpr ⟨h, rfl⟩
  · refine .inl ⟨fun k hk => ?_, pop_eq_ok.mpr ⟨h, rfl, rfl⟩⟩
    obtain rfl : k = 0 := by omega
    rwa [← wordsAbove_one]

theorem discard_popsWords (n : Nat) (s : State) :
    PopsWords s (s.readReg .sp) n (discard n s) (s.poppedWords n) := by
  cases h : discard n s with
  | error f =>
    obtain ⟨k, hk, ha, hb, rfl⟩ := discard_eq_error.mp h
    exact .inr ⟨k, hk, ha, hb, rfl⟩
  | ok t =>
    obtain ⟨ha, rfl⟩ := discard_eq_ok.mp h
    exact .inl ⟨ha, rfl⟩

/-- Popping into registers other than SP loads them from the words above SP. -/
theorem popRegs_popsWords (rs : List Reg) (s : State) (hsp : Reg.sp ∉ rs) :
    PopsWords s (s.readReg .sp) rs.length (popRegs rs s)
      ((s.poppedWords rs.length).loadRegs rs (s.readReg .sp + 2#16)) := by
  induction rs generalizing s with
  | nil => exact .inl ⟨by simp, by simp [popRegs, State.loadRegs]⟩
  | cons r rs ih =>
    simp only [List.mem_cons, not_or] at hsp
    have h := ih (s.popped.writeReg r (s.wordAt (s.readReg .sp + 2#16))) hsp.2
    rw [State.readReg_writeReg_ne _ _ _ _ hsp.1, State.popped_sp,
      State.writeReg_poppedWords _ _ _ _ hsp.1, State.popped_poppedWords] at h
    have h' := PopsWords.bind (f := fun p : Word × State => popRegs rs (p.2.writeReg r p.1))
      (pop_popsWords s) (h.of_memSize (t := s) rfl)
    rwa [Nat.add_comm] at h'

/-! ### The stages of state-restore, each over the state before Ret -/

section
variable (s : State)

/-- After step 1: SP is FP. -/
def State.ret1 : State := s.writeReg .sp (s.readReg .fp)

/-- After step 2: the counter is the saved word. -/
def State.ret2 : State := s.ret1.popped.withFsc (s.wordAt (s.readReg .fp + 2#16))

/-- After step 3: IP is the return address. -/
def State.ret3 : State := s.ret2.popped.writeReg .ip (s.wordAt (s.ret2.readReg .sp + 2#16))

/-- After step 4: the general registers are back. -/
def State.ret4 : State :=
  (s.ret3.poppedWords 8).loadRegs generalRegs.reverse (s.ret3.readReg .sp + 2#16)

theorem State.ret1_sp : s.ret1.readReg .sp = s.readReg .fp := by simp [State.ret1]
theorem State.ret2_sp : s.ret2.readReg .sp = wordsAbove (s.readReg .fp) 1 := by
  simp [State.ret2, State.ret1_sp, wordsAbove_one]
theorem State.ret3_sp : s.ret3.readReg .sp = wordsAbove (s.readReg .fp) 2 := by
  simp [State.ret3, State.ret2_sp, wordsAbove_one, wordsAbove_add]
theorem State.ret4_sp : s.ret4.readReg .sp = wordsAbove (s.readReg .fp) 10 := by
  unfold State.ret4
  rw [State.loadRegs_readReg_ne _ _ _ _ (by decide)]
  simp [State.ret3_sp, wordsAbove_add]

theorem State.ret4_memSize : s.ret4.memSize = s.memSize := by
  simp [State.ret4, State.ret3, State.ret2, State.ret1]
theorem State.ret3_mem : s.ret3.mem = s.mem := rfl
theorem State.ret4_mem : s.ret4.mem = s.mem := by
  simp [State.ret4, State.ret3_mem]
theorem State.ret4_wordAt (a : Word) : s.ret4.wordAt a = s.wordAt a := by
  simp only [State.wordAt, State.byteAt, State.ret4_mem]

theorem State.ret4_status : s.ret4.status = s.status := by
  simp [State.ret4, State.ret3, State.ret2, State.ret1]

theorem State.ret4_fsc :
    s.ret4.fsc = wordsBelow (s.wordAt (wordsAbove (s.readReg .fp) 1)) 9 := by
  simp only [State.ret4, State.loadRegs_fsc, State.poppedWords_fsc, State.ret3,
    State.writeReg_fsc, State.popped_fsc, State.ret2, State.withFsc_fsc, wordsBelow_succ,
    wordsAbove_one]

theorem State.ret4_acc : s.ret4.readReg .acc = s.readReg .acc := by
  unfold State.ret4
  rw [State.loadRegs_readReg_ne _ _ _ _ (by decide)]
  simp [State.ret3, State.ret2, State.ret1]

theorem State.ret4_ip : s.ret4.readReg .ip = s.wordAt (wordsAbove (s.readReg .fp) 2) := by
  unfold State.ret4
  rw [State.loadRegs_readReg_ne _ _ _ _ (by decide)]
  simp [State.ret3, State.ret2_sp, wordsAbove_one, wordsAbove_add]

end

/-- Registers loaded depend on the memory only. -/
theorem State.loadRegs_readReg_mem {s t : State} (rs : List Reg) (a : Word) (r : Reg)
    (hr : r ∈ rs) (hm : s.mem = t.mem) :
    (s.loadRegs rs a).readReg r = (t.loadRegs rs a).readReg r := by
  induction rs generalizing s t a with
  | nil => simp at hr
  | cons r' rs ih =>
    simp only [State.loadRegs]
    have hw : s.wordAt a = t.wordAt a := by simp only [State.wordAt, State.byteAt, hm]
    by_cases h : r ∈ rs
    · exact ih _ h (by simpa using hm)
    · obtain rfl : r = r' := by simpa [h] using hr
      rw [State.loadRegs_readReg_ne _ _ _ _ h, State.loadRegs_readReg_ne _ _ _ _ h]
      simp [hw]

/-- The stages end in the restored state. -/
theorem State.restored_eq (s : State) :
    (let t := s.ret4.popped.poppedWords s.argCount
     t.writeReg .fp (s.readReg .fp + t.fsc)) = s.restored := by
  have hf : (s.ret4.popped.poppedWords s.argCount).fsc = s.restoredFsc := by
    rw [State.popped_poppedWords, State.poppedWords_fsc, State.ret4_fsc, wordsBelow_add]
    unfold State.restoredFsc
    congr 1
    omega
  dsimp only
  rw [hf]
  apply State.ext_reads
  · intro r
    by_cases hfp : r = .fp
    · subst hfp; simp
    by_cases hsp : r = .sp
    · subst hsp
      simp [State.ret4_sp, wordsAbove_one, wordsAbove_add]
    rw [State.readReg_writeReg_ne _ _ _ _ hfp, State.poppedWords_readReg _ _ _ hsp,
      State.popped_readReg _ _ hsp]
    by_cases hip : r = .ip
    · subst hip; rw [State.ret4_ip, State.restored_ip]
    by_cases hacc : r = .acc
    · subst hacc; rw [State.ret4_acc, State.restored_acc]
    have hg : r ∈ generalRegs.reverse := by cases r <;> simp_all [generalRegs]
    unfold State.ret4 State.restored
    rw [State.readReg_writeReg_ne _ _ _ _ hfp, State.withFsc_readReg,
      State.readReg_writeReg_ne _ _ _ _ hsp]
    have ha : s.ret3.readReg .sp + 2#16 = wordsAbove (s.readReg .fp) 2 + 2#16 := by
      rw [State.ret3_sp]
    rw [ha, State.loadRegs]
    exact State.loadRegs_readReg_mem _ _ _ hg rfl
  · exact hf
  · simp [State.ret4_status]
  · simp [State.ret4_mem]
  · simp [State.ret4_memSize]

/-! ### State-restore as a whole -/

/-- State-restore as a chain of pops; the last part finishes steps 5 and 6. -/
def restoreFinish (boundary : Word) (p : Word × State) : Except Fault State :=
  discard p.1.toNat p.2 >>= fun t => .ok (t.writeReg .fp (boundary + t.fsc))

theorem restoreState_stages (s : State) :
    restoreState s = pop s.ret1 >>= fun p1 => pop (p1.2.withFsc p1.1) >>= fun p2 =>
      popRegs generalRegs.reverse (p2.2.writeReg .ip p2.1) >>= fun t4 =>
        pop t4 >>= restoreFinish (s.readReg .fp) := by
  unfold restoreState State.ret1
  rfl

section
variable (s : State)

theorem ret1_pop : PopsWords s (s.readReg .fp) 1 (pop s.ret1)
    (s.wordAt (s.readReg .fp + 2#16), s.ret1.popped) := by
  have h := (pop_popsWords s.ret1).of_memSize (t := s) rfl
  rwa [State.ret1_sp] at h

theorem ret2_pop : PopsWords s (wordsAbove (s.readReg .fp) 1) 1 (pop s.ret2)
    (s.wordAt (s.ret2.readReg .sp + 2#16), s.ret2.popped) := by
  have h := (pop_popsWords s.ret2).of_memSize (t := s) rfl
  rwa [State.ret2_sp] at h ⊢

theorem ret3_popRegs : PopsWords s (wordsAbove (s.readReg .fp) 2) 8
    (popRegs generalRegs.reverse s.ret3) s.ret4 := by
  have h := (popRegs_popsWords generalRegs.reverse s.ret3 (by decide)).of_memSize (t := s) rfl
  have e : generalRegs.reverse.length = 8 := rfl
  unfold State.ret4
  rw [e] at h
  rw [State.ret3_sp] at h ⊢
  exact h

theorem ret4_pop : PopsWords s (wordsAbove (s.readReg .fp) 10) 1 (pop s.ret4)
    (s.ret4.wordAt (s.ret4.readReg .sp + 2#16), s.ret4.popped) := by
  have h := (pop_popsWords s.ret4).of_memSize (t := s) s.ret4_memSize
  rwa [State.ret4_sp] at h ⊢

theorem ret5_finish : PopsWords s (wordsAbove (s.readReg .fp) 11) s.argCount
    (restoreFinish (s.readReg .fp) (s.ret4.wordAt (s.ret4.readReg .sp + 2#16), s.ret4.popped))
    s.restored := by
  have h := (discard_popsWords s.argCount s.ret4.popped).of_memSize (t := s)
    (by rw [State.popped_memSize, State.ret4_memSize])
  rw [State.popped_sp, State.ret4_sp, wordsAbove_one, wordsAbove_add] at h
  have hn : (s.ret4.wordAt (s.ret4.readReg .sp + 2#16)).toNat = s.argCount := by
    rw [State.ret4_wordAt, State.ret4_sp, wordsAbove_one, wordsAbove_add]
    rfl
  unfold restoreFinish
  rw [← State.restored_eq]
  dsimp only
  rw [hn]
  exact h.map fun t => t.writeReg .fp (s.readReg .fp + t.fsc)

/-- State-restore pops `11 + n` words going up from FP, `n` being the argument count: it answers with
the restored state when all have memory, and faults at the first that has none. -/
theorem restoreState_popsWords :
    PopsWords s (s.readReg .fp) (11 + s.argCount) (restoreState s) s.restored := by
  rw [restoreState_stages, show 11 + s.argCount = 1 + (1 + (8 + (1 + s.argCount))) by omega]
  refine (ret1_pop s).bind ?_
  refine PopsWords.bind (v := (s.wordAt (s.ret2.readReg .sp + 2#16), s.ret2.popped))
    (ret2_pop s) ?_
  rw [wordsAbove_add]
  refine PopsWords.bind (v := s.ret4) (ret3_popRegs s) ?_
  rw [wordsAbove_add]
  refine (ret4_pop s).bind ?_
  rw [wordsAbove_add]
  exact ret5_finish s

end

/-- State-restore answers exactly when every word it pops has memory. -/
theorem restoreState_eq_ok {s t : State} :
    restoreState s = .ok t ↔
      (∀ k < 11 + s.argCount, s.backedWord (wordsAbove (s.readReg .fp) (k + 1))) ∧
        t = s.restored := by
  rcases restoreState_popsWords s with ⟨h, hr⟩ | ⟨k, hk, -, hb, hr⟩
  · rw [hr]
    exact ⟨fun he => ⟨h, (Except.ok.inj he).symm⟩, fun he => by rw [he.2]⟩
  · rw [hr]
    refine ⟨fun he => (nomatch he), fun ⟨h, _⟩ => ?_⟩
    simp [h k hk] at hb

/-- State-restore faults at the first word it pops that has no memory. -/
theorem restoreState_eq_error {s : State} {f : Fault} :
    restoreState s = .error f ↔
      ∃ k < 11 + s.argCount, (∀ j < k, s.backedWord (wordsAbove (s.readReg .fp) (j + 1))) ∧
        s.backedWord (wordsAbove (s.readReg .fp) (k + 1)) = false ∧
        f = .boundsFault (s.wordFault (wordsAbove (s.readReg .fp) (k + 1))) := by
  rcases restoreState_popsWords s with ⟨h, hr⟩ | ⟨k, hk, ha, hb, hr⟩
  · rw [hr]
    refine ⟨fun he => (nomatch he), fun ⟨k, hk, _, hb, _⟩ => ?_⟩
    simp [h k hk] at hb
  · rw [hr]
    refine ⟨fun he => ⟨k, hk, ha, hb, (Except.error.inj he).symm⟩, ?_⟩
    rintro ⟨k', hk', ha', hb', he⟩
    have : k = k' := by
      rcases Nat.lt_trichotomy k k' with h | h | h
      · simp [ha' k h] at hb
      · exact h
      · simp [ha k' h] at hb'
    rw [he, this]

end Sys2Proof.Machine
end

