-- ==== Sys2Proof/Laws/Fetch.lean ====
section
/-! SUPPORT. The instruction stream: register ids and opcode bytes decode back, and the decoder on
the machine's own fetches answers as the decoder on the list of the bytes at IP. -/

namespace Sys2Proof

/-! ## Register ids and opcode bytes -/

@[simp] theorem regOfId_regId (r : Reg) : regOfId (regId r) = some r := by
  cases r <;> rfl

@[simp] theorem opcodeOfByte_opcodeByte (v : Opcode) : opcodeOfByte (opcodeByte v) = some v := by
  cases v <;> rfl

/-- A byte decodes to a register exactly when it is that register's id. -/
theorem regOfId_eq_some {b : Byte} {r : Reg} : regOfId b = some r ↔ b = regId r := by
  have h : ∀ n < 256, ∀ r, regOfId (BitVec.ofNat 8 n) = some r → BitVec.ofNat 8 n = regId r := by
    intro n hn r
    interval_cases n <;> cases r <;> decide
  constructor
  · intro hb
    have := h b.toNat b.isLt r
    simp only [BitVec.ofNat_toNat, BitVec.setWidth_eq] at this
    exact this hb
  · rintro rfl
    exact regOfId_regId r

/-- A byte decodes to a variant exactly when it is that variant's opcode byte. -/
theorem opcodeOfByte_eq_some {b : Byte} {v : Opcode} :
    opcodeOfByte b = some v ↔ b = opcodeByte v := by
  have h : ∀ n < 256, ∀ v, opcodeOfByte (BitVec.ofNat 8 n) = some v →
      BitVec.ofNat 8 n = opcodeByte v := by
    intro n hn v
    interval_cases n <;> cases v <;> decide
  constructor
  · intro hb
    have := h b.toNat b.isLt v
    simp only [BitVec.ofNat_toNat, BitVec.setWidth_eq] at this
    exact this hb
  · rintro rfl
    exact opcodeOfByte_opcodeByte v

end Sys2Proof

namespace Sys2Proof.Machine

/-! ## The machine's fetches against the list of bytes at IP -/

/-- `read` on a list and `fetch` on the machine do the same: from a state whose memory holds the
list at IP, both read the same value and leave the same bytes ahead, or both reject alike; where
the list runs out and no memory follows it, the machine's fault is at the byte after the list. -/
def ReadsAlike {α : Type} (read : List Byte → Except DecodeError (α × List Byte))
    (fetch : State → Except Fault (α × State)) : Prop :=
  ∀ (s : State) (bs : List Byte), s.holdsBytes (s.readReg .ip) bs = true →
    match read bs with
    | .ok (x, rest) => ∃ n : Nat, rest.length + n = bs.length ∧
        fetch s = .ok (x, s.writeReg .ip (s.readReg .ip + BitVec.ofNat 16 n)) ∧
        s.holdsBytes (s.readReg .ip + BitVec.ofNat 16 n) rest = true
    | .error .truncated => s.backed (s.readReg .ip + BitVec.ofNat 16 bs.length) = false →
        fetch s = .error (.boundsFault (s.readReg .ip + BitVec.ofNat 16 bs.length))
    | .error (.invalidInstruction op) => fetch s = .error (.invalidInstruction op)
    | .error (.invalidRegister b) => fetch s = .error (.invalidRegister b)

@[simp] theorem State.writeReg_holdsBytes (s : State) (r : Reg) (v a : Word) (bs : List Byte) :
    (s.writeReg r v).holdsBytes a bs = s.holdsBytes a bs := by
  induction bs generalizing a with
  | nil => rfl
  | cons b bs ih => simp [State.holdsBytes, ih]

theorem ReadsAlike.value {α : Type} (x : α) :
    ReadsAlike (fun bs => .ok (x, bs)) (fun s => .ok (x, s)) := by
  intro s bs h
  exact ⟨0, rfl, by simp, by simpa using h⟩

theorem ReadsAlike.bind {α β : Type} {read : List Byte → Except DecodeError (α × List Byte)}
    {fetch : State → Except Fault (α × State)}
    {read' : α → List Byte → Except DecodeError (β × List Byte)}
    {fetch' : α → State → Except Fault (β × State)}
    (h : ReadsAlike read fetch) (h' : ∀ x, ReadsAlike (read' x) (fetch' x)) :
    ReadsAlike (fun bs => read bs >>= fun p => read' p.1 p.2)
      (fun s => fetch s >>= fun p => fetch' p.1 p.2) := by
  intro s bs hs
  have h1 := h s bs hs
  cases hr : read bs with
  | error e => rw [hr] at h1; cases e <;> simp_all [Bind.bind, Except.bind]
  | ok p =>
    obtain ⟨x, rest⟩ := p
    rw [hr] at h1
    obtain ⟨n, hn, hf, hb⟩ := h1
    have h2 := h' x (s.writeReg .ip (s.readReg .ip + BitVec.ofNat 16 n)) rest (by simpa using hb)
    simp only [State.readReg_writeReg_same, State.writeReg_backed, State.writeReg_holdsBytes,
      State.writeReg_writeReg_same, BitVec.add_assoc, BitVec.ofNat_add_ofNat] at h2
    have e : (read bs >>= fun p => read' p.1 p.2) = read' x rest := by rw [hr]; rfl
    simp only [hf, ok_bind, e]
    cases hr' : read' x rest with
    | error e =>
      rw [hr'] at h2
      cases e
      · rw [show n + rest.length = bs.length by omega] at h2; exact h2
      · exact h2
      · exact h2
    | ok q =>
      rw [hr'] at h2
      obtain ⟨m, hm, hf', hb'⟩ := h2
      exact ⟨n + m, by omega, hf', hb'⟩

theorem readsAlike_fetch8 : ReadsAlike listFetch8 fetch8 := by
  intro s bs hs
  cases bs with
  | nil =>
    intro hb
    simp only [List.length_nil, BitVec.add_zero] at hb ⊢
    exact fetch8_eq_error.mpr ⟨hb, rfl⟩
  | cons b bs =>
    simp only [State.holdsBytes, Bool.and_eq_true, beq_iff_eq] at hs
    exact ⟨1, rfl, fetch8_eq_ok.mpr ⟨hs.1.1, hs.1.2, rfl⟩, hs.2⟩

theorem readsAlike_fetch16 : ReadsAlike listFetch16 fetch16 := by
  intro s bs hs
  rcases bs with _ | ⟨b, _ | ⟨c, bs⟩⟩
  · intro hb
    simp only [List.length_nil, BitVec.add_zero] at hb ⊢
    exact fetch16_eq_error.mpr ⟨by simp [State.backedWord, hb], by simp [State.wordFault, hb]⟩
  · intro hb
    simp only [State.holdsBytes, Bool.and_eq_true, beq_iff_eq] at hs
    simp only [List.length_cons, List.length_nil] at hb ⊢
    exact fetch16_eq_error.mpr ⟨by simp_all [State.backedWord], by simp [State.wordFault, hs]⟩
  · simp only [State.holdsBytes, Bool.and_eq_true, beq_iff_eq] at hs
    obtain ⟨⟨h1, h2⟩, ⟨h3, h4⟩, h5⟩ := hs
    refine ⟨2, rfl, fetch16_eq_ok.mpr ⟨by simp [State.backedWord, h1, h3], ?_, rfl⟩, ?_⟩
    · simp [State.wordAt, h2, h4]
    · rw [← h5, BitVec.add_assoc]; rfl

theorem readsAlike_fetchReg : ReadsAlike (fetchReg listSource) (fetchReg machineSource) := by
  have h : ∀ b : Byte, ReadsAlike
      (fun bs => match regOfId b with
        | some r => .ok (r, bs)
        | none => .error (.invalidRegister b))
      (fun s => match regOfId b with
        | some r => .ok (r, s)
        | none => .error (.invalidRegister b)) := by
    intro b
    cases regOfId b with
    | none => intro s bs hs; rfl
    | some r => exact ReadsAlike.value r
  exact ReadsAlike.bind readsAlike_fetch8 h

theorem readsAlike_fetchOperands (v : Opcode) :
    ReadsAlike (fetchOperands listSource v) (fetchOperands machineSource v) := by
  cases v
  · exact readsAlike_fetch16.bind fun _ => readsAlike_fetchReg.bind fun _ => .value _
  · exact readsAlike_fetchReg.bind fun _ => readsAlike_fetchReg.bind fun _ => .value _
  · exact readsAlike_fetchReg.bind fun _ => readsAlike_fetch16.bind fun _ => .value _
  · exact readsAlike_fetch16.bind fun _ => readsAlike_fetchReg.bind fun _ => .value _
  · exact readsAlike_fetchReg.bind fun _ => readsAlike_fetchReg.bind fun _ => .value _
  · exact readsAlike_fetch16.bind fun _ => readsAlike_fetch16.bind fun _ => .value _
  · exact readsAlike_fetch16.bind fun _ => .value _
  · exact readsAlike_fetchReg.bind fun _ => .value _
  · exact readsAlike_fetchReg.bind fun _ => .value _
  · exact readsAlike_fetch16.bind fun _ => .value _
  · exact readsAlike_fetchReg.bind fun _ => .value _
  · exact .value _
  · exact .value _

/-- Fetching one instruction is decoding the bytes at IP. -/
theorem readsAlike_fetchInstr : ReadsAlike decode fetchInstr := by
  have h : ∀ op : Byte, ReadsAlike
      (fun bs => match opcodeOfByte op with
        | none => .error (.invalidInstruction op)
        | some v => fetchOperands listSource v bs)
      (fun s => match opcodeOfByte op with
        | none => .error (.invalidInstruction op)
        | some v => fetchOperands machineSource v s) := by
    intro op
    cases opcodeOfByte op with
    | none => intro s bs hs; rfl
    | some v => exact readsAlike_fetchOperands v
  exact ReadsAlike.bind readsAlike_fetch8 h

/-! ## What a fetched instruction says about the bytes at IP -/

theorem State.holdsBytes_append (s : State) (a : Word) (bs cs : List Byte) :
    s.holdsBytes a (bs ++ cs) =
      (s.holdsBytes a bs && s.holdsBytes (a + BitVec.ofNat 16 bs.length) cs) := by
  induction bs generalizing a with
  | nil => simp [State.holdsBytes]
  | cons b bs ih =>
    have : a + 1#16 + BitVec.ofNat 16 bs.length = a + BitVec.ofNat 16 (bs.length + 1) := by
      rw [BitVec.add_assoc, BitVec.ofNat_add_ofNat, Nat.add_comm]
    simp [State.holdsBytes, ih, this, Bool.and_assoc]

/-- The fetch answers with a value whose bytes, as `enc` writes them, stand at IP, and moves IP past
them. -/
def FetchesBytes {α : Type} (fetch : State → Except Fault (α × State)) (enc : α → List Byte) :
    Prop :=
  ∀ (s t : State) (x : α), fetch s = .ok (x, t) →
    s.holdsBytes (s.readReg .ip) (enc x) = true ∧
      t = s.writeReg .ip (s.readReg .ip + BitVec.ofNat 16 (enc x).length)

theorem fetchesBytes_fetch16 : FetchesBytes fetch16 encodeWord := by
  intro s t x h
  obtain ⟨h1, rfl, rfl⟩ := fetch16_eq_ok.mp h
  simp only [State.backedWord, Bool.and_eq_true] at h1
  exact ⟨by simp [encodeWord, State.holdsBytes, State.wordAt, h1], rfl⟩

theorem fetchesBytes_fetchReg : FetchesBytes (fetchReg machineSource) (fun r => [regId r]) := by
  intro s t x h
  obtain ⟨⟨b, u⟩, h1, h2⟩ := bind_eq_ok.mp h
  obtain ⟨hb, rfl, rfl⟩ := fetch8_eq_ok.mp h1
  simp only at h2
  split at h2
  · rename_i r hr
    simp only [Except.ok.injEq, Prod.mk.injEq] at h2
    obtain ⟨rfl, rfl⟩ := h2
    exact ⟨by simp [State.holdsBytes, hb, regOfId_eq_some.mp hr], rfl⟩
  · simp at h2

theorem FetchesBytes.pair {α β γ : Type} {f : State → Except Fault (α × State)}
    {g : State → Except Fault (β × State)} {enc : α → List Byte} {enc' : β → List Byte}
    (hf : FetchesBytes f enc) (hg : FetchesBytes g enc') {mk : α → β → γ} {s t : State} {z : γ}
    (h : (f s >>= fun p => g p.2 >>= fun q => .ok (mk p.1 q.1, q.2)) = .ok (z, t)) :
    ∃ x y, z = mk x y ∧ s.holdsBytes (s.readReg .ip) (enc x ++ enc' y) = true ∧
      t = s.writeReg .ip (s.readReg .ip + BitVec.ofNat 16 (enc x ++ enc' y).length) := by
  obtain ⟨⟨x, u⟩, h1, h2⟩ := bind_eq_ok.mp h
  obtain ⟨⟨y, v⟩, h3, h4⟩ := bind_eq_ok.mp h2
  obtain ⟨hx, rfl⟩ := hf _ _ _ h1
  obtain ⟨hy, rfl⟩ := hg _ _ _ h3
  simp only [Except.ok.injEq, Prod.mk.injEq] at h4
  obtain ⟨rfl, rfl⟩ := h4
  refine ⟨x, y, rfl, ?_, ?_⟩
  · rw [State.holdsBytes_append, hx]
    simpa using hy
  · simp [BitVec.add_assoc, BitVec.ofNat_add_ofNat]

theorem FetchesBytes.single {α γ : Type} {f : State → Except Fault (α × State)}
    {enc : α → List Byte} (hf : FetchesBytes f enc) {mk : α → γ} {s t : State} {z : γ}
    (h : (f s >>= fun p => .ok (mk p.1, p.2)) = .ok (z, t)) :
    ∃ x, z = mk x ∧ s.holdsBytes (s.readReg .ip) (enc x) = true ∧
      t = s.writeReg .ip (s.readReg .ip + BitVec.ofNat 16 (enc x).length) := by
  obtain ⟨⟨x, u⟩, h1, h2⟩ := bind_eq_ok.mp h
  obtain ⟨hx, rfl⟩ := hf _ _ _ h1
  simp only [Except.ok.injEq, Prod.mk.injEq] at h2
  obtain ⟨rfl, rfl⟩ := h2
  exact ⟨x, rfl, hx, rfl⟩

/-- The operand fetches of a variant answer with an instruction of that variant, whose operand
bytes stand at IP. -/
theorem fetchOperands_eq_ok {v : Opcode} {s t : State} {i : Instr}
    (h : fetchOperands machineSource v s = .ok (i, t)) :
    ∃ bs, encode i = opcodeByte v :: bs ∧ s.holdsBytes (s.readReg .ip) bs = true ∧
      t = s.writeReg .ip (s.readReg .ip + BitVec.ofNat 16 bs.length) := by
  cases v
  · obtain ⟨x, y, rfl, hb, rfl⟩ := fetchesBytes_fetch16.pair fetchesBytes_fetchReg h
    exact ⟨_, rfl, hb, rfl⟩
  · obtain ⟨x, y, rfl, hb, rfl⟩ := fetchesBytes_fetchReg.pair fetchesBytes_fetchReg h
    exact ⟨_, rfl, hb, rfl⟩
  · obtain ⟨x, y, rfl, hb, rfl⟩ := fetchesBytes_fetchReg.pair fetchesBytes_fetch16 h
    exact ⟨_, rfl, hb, rfl⟩
  · obtain ⟨x, y, rfl, hb, rfl⟩ := fetchesBytes_fetch16.pair fetchesBytes_fetchReg h
    exact ⟨_, rfl, hb, rfl⟩
  · obtain ⟨x, y, rfl, hb, rfl⟩ := fetchesBytes_fetchReg.pair fetchesBytes_fetchReg h
    exact ⟨_, rfl, hb, rfl⟩
  · obtain ⟨x, y, rfl, hb, rfl⟩ := fetchesBytes_fetch16.pair fetchesBytes_fetch16 h
    exact ⟨_, rfl, hb, rfl⟩
  · obtain ⟨x, rfl, hb, rfl⟩ := fetchesBytes_fetch16.single h
    exact ⟨_, rfl, hb, rfl⟩
  · obtain ⟨x, rfl, hb, rfl⟩ := fetchesBytes_fetchReg.single h
    exact ⟨_, rfl, hb, rfl⟩
  · obtain ⟨x, rfl, hb, rfl⟩ := fetchesBytes_fetchReg.single h
    exact ⟨_, rfl, hb, rfl⟩
  · obtain ⟨x, rfl, hb, rfl⟩ := fetchesBytes_fetch16.single h
    exact ⟨_, rfl, hb, rfl⟩
  · obtain ⟨x, rfl, hb, rfl⟩ := fetchesBytes_fetchReg.single h
    exact ⟨_, rfl, hb, rfl⟩
  · simp only [fetchOperands, Except.ok.injEq, Prod.mk.injEq] at h
    obtain ⟨rfl, rfl⟩ := h
    exact ⟨[], rfl, rfl, by simp⟩
  · simp only [fetchOperands, Except.ok.injEq, Prod.mk.injEq] at h
    obtain ⟨rfl, rfl⟩ := h
    exact ⟨[], rfl, rfl, by simp⟩

/-- A fetched instruction's bytes stand at IP, all of them in memory, and the fetch has moved IP
past them and changed nothing else. -/
theorem fetchInstr_eq_ok {s t : State} {i : Instr} (h : fetchInstr s = .ok (i, t)) :
    s.holdsBytes (s.readReg .ip) (encode i) = true ∧
      t = s.writeReg .ip (s.readReg .ip + BitVec.ofNat 16 (encode i).length) := by
  obtain ⟨⟨op, u⟩, h1, h2⟩ := bind_eq_ok.mp h
  obtain ⟨hb, rfl, rfl⟩ := fetch8_eq_ok.mp h1
  simp only at h2
  split at h2
  · simp at h2
  · rename_i v hv
    obtain ⟨bs, he, hbs, rfl⟩ := fetchOperands_eq_ok h2
    rw [he]
    refine ⟨?_, ?_⟩
    · simp only [State.holdsBytes, hb, opcodeOfByte_eq_some.mp hv]
      simpa using hbs
    · simp [BitVec.add_assoc, BitVec.ofNat_add_ofNat, Nat.add_comm]

end Sys2Proof.Machine
end

