-- ==== Sys2Proof/Laws/PerInstr.lean ====
section
/-! SUPPORT. Statements about every instruction as syntax, one lemma per constructor. -/

namespace Sys2Proof.Laws

/-- The id of every register is legal (spec/30_encoding.md R74, R77). -/
theorem legalRegisterId_regId (r : Reg) : legalRegisterId (regId r) = true := by
  cases r <;> rfl

/-- The encoder writes legal bytes, as many as the table of lengths says (spec/30_encoding.md R71,
R72, R77). -/
def EncodingWellFormed.Statement (i : Instr) : Prop :=
  wellFormedEncoding (encode i) = true ∧ (encode i).length = instrLength i

theorem EncodingWellFormed.moveLitToReg (lit : Word) (dest : Reg) :
    EncodingWellFormed.Statement (.moveLitToReg lit dest) :=
  ⟨by simp [encode, encodeWord, wellFormedEncoding, encodingShape, opcodeByte,
    legalRegisterId_regId], rfl⟩

theorem EncodingWellFormed.moveRegToReg (src dest : Reg) :
    EncodingWellFormed.Statement (.moveRegToReg src dest) :=
  ⟨by simp [encode, wellFormedEncoding, encodingShape, opcodeByte, legalRegisterId_regId], rfl⟩

theorem EncodingWellFormed.moveRegToMem (src : Reg) (addr : Word) :
    EncodingWellFormed.Statement (.moveRegToMem src addr) :=
  ⟨by simp [encode, encodeWord, wellFormedEncoding, encodingShape, opcodeByte,
    legalRegisterId_regId], rfl⟩

theorem EncodingWellFormed.moveMemToReg (addr : Word) (dest : Reg) :
    EncodingWellFormed.Statement (.moveMemToReg addr dest) :=
  ⟨by simp [encode, encodeWord, wellFormedEncoding, encodingShape, opcodeByte,
    legalRegisterId_regId], rfl⟩

theorem EncodingWellFormed.addRegReg (reg1 reg2 : Reg) :
    EncodingWellFormed.Statement (.addRegReg reg1 reg2) :=
  ⟨by simp [encode, wellFormedEncoding, encodingShape, opcodeByte, legalRegisterId_regId], rfl⟩

theorem EncodingWellFormed.jmpNotEq (lit target : Word) :
    EncodingWellFormed.Statement (.jmpNotEq lit target) := ⟨rfl, rfl⟩

theorem EncodingWellFormed.pushLit (lit : Word) :
    EncodingWellFormed.Statement (.pushLit lit) := ⟨rfl, rfl⟩

theorem EncodingWellFormed.pushReg (reg : Reg) :
    EncodingWellFormed.Statement (.pushReg reg) :=
  ⟨by simp [encode, wellFormedEncoding, encodingShape, opcodeByte, legalRegisterId_regId], rfl⟩

theorem EncodingWellFormed.pop (reg : Reg) :
    EncodingWellFormed.Statement (.pop reg) :=
  ⟨by simp [encode, wellFormedEncoding, encodingShape, opcodeByte, legalRegisterId_regId], rfl⟩

theorem EncodingWellFormed.callLit (target : Word) :
    EncodingWellFormed.Statement (.callLit target) := ⟨rfl, rfl⟩

theorem EncodingWellFormed.callReg (reg : Reg) :
    EncodingWellFormed.Statement (.callReg reg) :=
  ⟨by simp [encode, wellFormedEncoding, encodingShape, opcodeByte, legalRegisterId_regId], rfl⟩

theorem EncodingWellFormed.ret : EncodingWellFormed.Statement .ret := ⟨rfl, rfl⟩

theorem EncodingWellFormed.hlt : EncodingWellFormed.Statement .hlt := ⟨rfl, rfl⟩

end Sys2Proof.Laws
end

