-- ==== Sys2Proof/Tests/Slice0.lean ====
section
/-! SUPPORT. Tests of one step or one operation, their expected results taken from the vectors of
spec/95_test_vectors.md (the id stands before each), and a witness of the hypotheses of every
statement that has any. -/

namespace Sys2Proof.Tests

open Sys2Proof.Machine Sys2Proof.Claims

/-! ## Helpers -/

/-- A launch state: capacity `L`, IP at `a`, `code` there, further bytes and registers as listed. -/
def launch (L : Nat) (a : Word) (code : List Byte) (segs : List (Word × List Byte) := [])
    (rs : List (Reg × Word) := []) : State :=
  let s := placeBytes code a ((State.constructed L).writeReg .ip a)
  let s := segs.foldl (fun s p => placeBytes p.2 p.1 s) s
  rs.foldl (fun s p => s.writeReg p.1 p.2) s

/-- What a next state shows. -/
def next? {α : Type} (f : State → α) : Host.Outcome State Fault Refusal → Option α
  | .next t => some (f t)
  | .fault _ => none
  | .refused _ => none

/-- The fault a step answers. -/
def fault? : Host.Outcome State Fault Refusal → Option Fault
  | .next _ => none
  | .fault f => some f
  | .refused _ => none

/-! ## WellFormed: each check refuses an ill-formed term -/

theorem test_wellFormed_accepts :
    wellFormedEncoding [0x10#8, 0x12#8, 0x34#8, 0x0B#8] = true ∧ legalRegisterId 0x0B#8 = true ∧
      legalOpcode 0x5E#8 = true ∧ legalCapacity 2 = true ∧ legalCapacity 65536 = true := by decide

theorem test_wellFormed_refuses_empty : wellFormedEncoding [] = false := by decide

theorem test_wellFormed_refuses_opcode :
    wellFormedEncoding [0x16#8] = false ∧ legalOpcode 0x16#8 = false ∧
      encodingShape 0x16#8 = none := by decide

theorem test_wellFormed_refuses_length :
    wellFormedEncoding [0x10#8, 0x12#8, 0x34#8] = false ∧
      wellFormedEncoding [0x60#8, 0x00#8] = false := by decide

theorem test_wellFormed_refuses_register :
    wellFormedEncoding [0x10#8, 0x00#8, 0x01#8, 0x0C#8] = false ∧
      wellFormedEncoding [0x11#8, 0xFF#8, 0x04#8] = false ∧
      wellFormedEncoding [0x11#8, 0x04#8, 0xFF#8] = false ∧ legalRegisterId 0x0C#8 = false := by
  decide

/-- The ends of the four illegal ranges of R76. -/
theorem test_legalOpcode_range_ends :
    [0x00#8, 0x0F#8, 0x16#8, 0x1A#8, 0x5D#8, 0x61#8, 0xFE#8].all (fun b => !legalOpcode b) = true ∧
    [0x10#8, 0x15#8, 0x17#8, 0x19#8, 0x5E#8, 0x60#8, 0xFF#8].all legalOpcode = true := by decide

theorem test_legalCapacity_refuses : legalCapacity 1 = false ∧ legalCapacity 65537 = false := by
  decide

/-! ## Decode: one word of each constructor, written out from opcode_table.json and the worked
encodings of section 1.1; all operand bytes differ where the format has two -/

theorem test_decode_moveLitToReg :
    decode [0x10#8, 0x56#8, 0x78#8, 0x05#8] = .ok (.moveLitToReg 0x5678#16 .r2, []) := rfl
theorem test_decode_moveRegToReg :
    decode [0x11#8, 0x02#8, 0x0A#8] = .ok (.moveRegToReg .fp .r7, []) := rfl
theorem test_decode_moveRegToMem :
    decode [0x12#8, 0x03#8, 0x00#8, 0x01#8] = .ok (.moveRegToMem .acc 0x0001#16, []) := rfl
theorem test_decode_moveMemToReg :
    decode [0x13#8, 0x00#8, 0x01#8, 0x04#8] = .ok (.moveMemToReg 0x0001#16 .r1, []) := rfl
theorem test_decode_addRegReg :
    decode [0x14#8, 0x08#8, 0x09#8] = .ok (.addRegReg .r5 .r6, []) := rfl
theorem test_decode_jmpNotEq :
    decode [0x15#8, 0x12#8, 0x34#8, 0x56#8, 0x78#8] = .ok (.jmpNotEq 0x1234#16 0x5678#16, []) := rfl
theorem test_decode_pushLit :
    decode [0x17#8, 0x12#8, 0x34#8] = .ok (.pushLit 0x1234#16, []) := rfl
theorem test_decode_pushReg : decode [0x18#8, 0x00#8] = .ok (.pushReg .ip, []) := rfl
theorem test_decode_pop : decode [0x19#8, 0x01#8] = .ok (.pop .sp, []) := rfl
theorem test_decode_callLit :
    decode [0x5E#8, 0xAB#8, 0xCD#8] = .ok (.callLit 0xABCD#16, []) := rfl
theorem test_decode_callReg : decode [0x5F#8, 0x07#8] = .ok (.callReg .r4, []) := rfl
theorem test_decode_ret : decode [0x60#8, 0xAA#8] = .ok (.ret, [0xAA#8]) := rfl
theorem test_decode_hlt : decode [0xFF#8] = .ok (.hlt, []) := rfl

/-- A table word is numbered from the first byte up. -/
theorem test_decodeTableWord :
    decodeTableWord 32 0x04341210 = some (.moveLitToReg 0x1234#16 .r1) ∧
      decodeTableWord 8 0x15 = some (.jmpNotEq 0x0000#16 0x0000#16) ∧
      decodeTableWord 8 0x16 = none := by decide

/-- The placed instruction is the first one after reset. -/
theorem test_withFetchWord :
    next? (fun t => (t.readReg .r1, t.readReg .ip)) (step (State.reset.withFetchWord 32 0x04341210))
      = some (0x1234#16, 0x0004#16) := by decide

/-! ## Memory: the canonical form -/

theorem test_memory_write_sorts :
    (Memory.write [(2, 0x22#8)] 1 0x11#8) = [(1, 0x11#8), (2, 0x22#8)] ∧
      Memory.write [(1, 0x11#8), (2, 0x22#8)] 1 0#8 = [(2, 0x22#8)] := by decide

theorem test_memory_wf_refuses :
    ¬ Memory.wf [(2, 0x22#8), (1, 0x11#8)] ∧ ¬ Memory.wf [(1, 0#8)] ∧
      ¬ Memory.wf [(1, 1#8), (1, 2#8)] := by decide

/-! ## Fetch and decode in a step -/

/-- FD-1, FD-5, FD-6. -/
theorem test_step_rejects :
    fault? (step (launch 65535 0x0000#16 [0x16#8])) = some (.invalidInstruction 0x16#8) ∧
    fault? (step (launch 65535 0x0000#16 [0x10#8, 0x00#8, 0x01#8, 0x0C#8]))
      = some (.invalidRegister 0x0C#8) ∧
    fault? (step (launch 65535 0x0000#16 [0x11#8, 0xFF#8, 0x04#8]))
      = some (.invalidRegister 0xFF#8) := by decide

/-- FD-3, FD-7. -/
theorem test_step_fetch_bounds :
    fault? (step (launch 65535 0xFFFF#16 [])) = some (.boundsFault 0xFFFF#16) ∧
    fault? (step (launch 16 0x000E#16 [0x10#8, 0x00#8])) = some (.boundsFault 0x0010#16) := by
  decide

/-! ## The instructions -/

/-- DM-1. -/
theorem test_moveLitToReg :
    next? (fun t => (t.readReg .r1, t.readReg .ip))
      (step (launch 65535 0x0000#16 [0x10#8, 0x12#8, 0x34#8, 0x04#8]))
      = some (0x1234#16, 0x0004#16) := by decide
/-- DM-2. -/
theorem test_moveLitToReg_ip :
    next? (·.readReg .ip) (step (launch 65535 0x0000#16 [0x10#8, 0x00#8, 0x40#8, 0x00#8]))
      = some 0x0040#16 := by decide

/-- DM-4. -/
theorem test_moveRegToReg :
    next? (fun t => (t.readReg .r1, t.readReg .r2, t.readReg .ip))
      (step (launch 65535 0x0010#16 [0x11#8, 0x04#8, 0x05#8] [] [(.r1, 0xBEEF#16)]))
      = some (0xBEEF#16, 0xBEEF#16, 0x0013#16) := by decide
/-- DM-5. -/
theorem test_moveRegToReg_from_ip :
    next? (·.readReg .r1) (step (launch 65535 0x0010#16 [0x11#8, 0x00#8, 0x04#8]))
      = some 0x0013#16 := by decide

/-- DM-7. -/
theorem test_moveRegToMem_bounds :
    fault? (step (launch 65535 0x0000#16 [0x12#8, 0x04#8, 0xFF#8, 0xFE#8] [] [(.r1, 0xABCD#16)]))
      = some (.boundsFault 0xFFFF#16) := by decide
/-- DM-8. -/
theorem test_moveRegToMem_wraps :
    next? (fun t => (t.byteAt 0xFFFF#16, t.byteAt 0x0000#16, t.readReg .ip))
      (step (launch 65536 0x0010#16 [0x12#8, 0x04#8, 0xFF#8, 0xFF#8] [] [(.r1, 0xABCD#16)]))
      = some (0xAB#8, 0xCD#8, 0x0014#16) := by decide

/-- DM-9. -/
theorem test_moveMemToReg :
    next? (fun t => (t.readReg .r2, t.readReg .ip))
      (step (launch 65535 0x0000#16 [0x13#8, 0x01#8, 0x00#8, 0x05#8]
        [(0x0100#16, [0xAB#8, 0xCD#8])]))
      = some (0xABCD#16, 0x0004#16) := by decide
/-- DM-11 and DM-12: the register field is checked before the data is read. -/
theorem test_moveMemToReg_fault_order :
    fault? (step (launch 65535 0x0000#16 [0x13#8, 0xFF#8, 0xFF#8, 0x04#8]))
      = some (.boundsFault 0xFFFF#16) ∧
    fault? (step (launch 65535 0x0000#16 [0x13#8, 0xFF#8, 0xFF#8, 0x0C#8]))
      = some (.invalidRegister 0x0C#8) := by decide

/-- AL-4. -/
theorem test_addRegReg_wraps :
    next? (·.readReg .acc) (step (launch 65535 0x0000#16 [0x14#8, 0x04#8, 0x05#8] []
      [(.r1, 0xFFFF#16), (.r2, 0xFFFF#16)])) = some 0xFFFE#16 := by decide
/-- AL-7. -/
theorem test_addRegReg_ip :
    next? (fun t => (t.readReg .acc, t.readReg .ip))
      (step (launch 65535 0x0020#16 [0x14#8, 0x00#8, 0x04#8] [] [(.r1, 0x0001#16)]))
      = some (0x0024#16, 0x0023#16) := by decide

/-- BR-1. -/
theorem test_jmpNotEq_taken :
    next? (·.readReg .ip) (step (launch 65535 0x000F#16 [0x15#8, 0x00#8, 0x03#8, 0x00#8, 0x00#8] []
      [(.acc, 0x0002#16)])) = some 0x0000#16 := by decide
/-- BR-2. -/
theorem test_jmpNotEq_falls_through :
    next? (·.readReg .ip) (step (launch 65535 0x000F#16 [0x15#8, 0x00#8, 0x03#8, 0x00#8, 0x00#8] []
      [(.acc, 0x0003#16)])) = some 0x0014#16 := by decide

/-- ST-1. -/
theorem test_pushLit :
    next? (fun t => (t.byteAt 0xFFFD#16, t.byteAt 0xFFFE#16, t.readReg .sp, t.fsc, t.readReg .ip))
      (step (launch 65535 0x0000#16 [0x17#8, 0x12#8, 0x34#8]))
      = some (0x12#8, 0x34#8, 0xFFFB#16, 0x0002#16, 0x0003#16) := by decide
/-- FD-4: IP wraps inside the instruction, whose own bytes the push overwrites. -/
theorem test_pushLit_wraps :
    next? (fun t => (t.byteAt 0xFFFE#16, t.byteAt 0xFFFF#16, t.readReg .sp, t.readReg .ip))
      (step (launch 65536 0xFFFE#16 [0x17#8, 0x12#8, 0x34#8]))
      = some (0x12#8, 0x34#8, 0xFFFC#16, 0x0001#16) := by decide

/-- ST-4. -/
theorem test_pushReg_sp :
    next? (fun t => (t.wordAt 0xFFFD#16, t.readReg .sp, t.fsc))
      (step (launch 65535 0x0000#16 [0x18#8, 0x01#8]))
      = some (0xFFFD#16, 0xFFFB#16, 0x0002#16) := by decide
/-- ST-5. -/
theorem test_pushReg_ip :
    next? (fun t => (t.wordAt 0xFFFD#16, t.readReg .ip))
      (step (launch 65535 0x0030#16 [0x18#8, 0x00#8])) = some (0x0032#16, 0x0032#16) := by decide

/-- ST-3. -/
theorem test_pop_wraps :
    next? (fun t => (t.readReg .r1, t.readReg .sp, t.fsc))
      (step (launch 65536 0x0000#16 [0x19#8, 0x04#8]))
      = some (0x1904#16, 0x0000#16, 0xFFFE#16) := by decide
/-- ST-7, its second step. -/
theorem test_pop_sp :
    next? (·.readReg .sp) (step (launch 65535 0x0003#16 [0x19#8, 0x01#8]
      [(0xFFFD#16, [0x10#8, 0x00#8])] [(.sp, 0xFFFB#16)])) = some 0x1000#16 := by decide

/-- CR-1, its first step. -/
theorem test_callLit :
    next? (fun t => (t.readReg .ip, t.readReg .sp, t.readReg .fp, t.fsc,
        t.wordAt 0xFFEB#16, t.wordAt 0xFFED#16))
      (step (launch 65535 0x0000#16 [0x5E#8, 0x00#8, 0x40#8]))
      = some (0x0040#16, 0xFFE9#16, 0xFFE9#16, 0x0000#16, 0x0014#16, 0x0003#16) := by decide
/-- CR-2: R1 is saved highest, R8 lowest. -/
theorem test_callLit_frame_order :
    next? (fun t => (t.wordAt 0xFFFD#16, t.wordAt 0xFFEF#16))
      (step (launch 65535 0x0000#16 [0x5E#8, 0x00#8, 0x40#8] []
        [(.r1, 0x4004#16), (.r8, 0xB00B#16)])) = some (0x4004#16, 0xB00B#16) := by decide

/-- CR-3. -/
theorem test_callReg :
    next? (fun t => (t.readReg .ip, t.readReg .sp, t.wordAt 0xFFED#16))
      (step (launch 65535 0x0000#16 [0x5F#8, 0x06#8] [] [(.r3, 0x0040#16)]))
      = some (0x0040#16, 0xFFE9#16, 0x0002#16) := by decide
/-- CR-5, its first step. -/
theorem test_callReg_sp :
    next? (fun t => (t.readReg .ip, t.readReg .sp)) (step (launch 65535 0x0000#16 [0x5F#8, 0x01#8]))
      = some (0xFFFD#16, 0xFFE9#16) := by decide

/-- The state of program P4 before its Ret (step 6): a frame with one argument. -/
def atRet : State :=
  (launch 65535 0x0026#16 [0x60#8]
    [(0xFFE7#16, [0x00#8, 0x18#8, 0x00#8, 0x0D#8]), (0xFFF9#16, [0x11#8, 0x11#8, 0x00#8, 0x01#8,
      0x00#8, 0xAA#8])]
    [(.sp, 0xFFE3#16), (.fp, 0xFFE5#16), (.r1, 0x2222#16)]).withFsc 0x0002#16

/-- P4, step 6. -/
theorem test_ret :
    next? (fun t => (t.readReg .ip, t.readReg .sp, t.readReg .fp, t.fsc, t.readReg .r1)) (step atRet)
      = some (0x000D#16, 0xFFFD#16, 0xFFE7#16, 0x0002#16, 0x1111#16) := by decide
/-- CR-6b. -/
theorem test_ret_wraps :
    next? (fun t => (t.readReg .ip, t.readReg .sp, t.readReg .fp, t.fsc))
      (step (launch 65536 0x0000#16 [0x60#8]))
      = some (0x0000#16, 0x0014#16, 0x5FEA#16, 0x5FEC#16) := by decide

/-- HL-1. -/
theorem test_hlt :
    next? (fun t => (t.status, t.readReg .ip)) (step (launch 65535 0x0000#16 [0xFF#8]))
      = some (.halted, 0x0001#16) := by decide
/-- HL-2. -/
theorem test_halted_stays :
    next? id (step ((launch 65535 0x0001#16 []).withStatus .halted))
      = some ((launch 65535 0x0001#16 []).withStatus .halted) := by decide
/-- HL-3 after FD-1. -/
theorem test_faulted_stays :
    fault? (step ((launch 65535 0x0001#16 []).withStatus (.faulted (.invalidInstruction 0x16#8))))
      = some (.invalidInstruction 0x16#8) := by decide

/-! ## Witnesses: states that meet the hypotheses of the statements -/

/-- The hypotheses of `RunsAs` for `code`, of `BoundsFaultAfter` for its first `k` bytes at the end
of a small memory (each `k` of `bounds`), and of `InvalidRegisterAfter` for its first `k` bytes
with the least and the greatest illegal id after them (each `k` of `ids`). -/
def FetchHypothesesMet (code : List Byte) (bounds ids : List Nat) : Prop :=
  ((launch 16 0x0000#16 code).status = .running ∧
    (launch 16 0x0000#16 code).holdsBytes 0x0000#16 code = true) ∧
  (∀ k ∈ bounds, let a := BitVec.ofNat 16 (16 - k)
    let s := launch 16 a (code.take k)
    s.status = .running ∧ s.holdsBytes (s.readReg .ip) (code.take k) = true ∧
      s.backed (s.readReg .ip + BitVec.ofNat 16 (code.take k).length) = false) ∧
  ∀ k ∈ ids, ∀ b ∈ [0x0C#8, 0xFF#8], let s := launch 16 0x0000#16 (code.take k ++ [b])
    legalRegisterId b = false ∧ s.status = .running ∧
      s.holdsBytes (s.readReg .ip) (code.take k ++ [b]) = true

theorem witness_MoveLitToRegWritesLiteral :
    FetchHypothesesMet [0x10#8, 0x12#8, 0x34#8, regId .r1] [1, 2, 3] [3] := by
  unfold FetchHypothesesMet; decide
theorem witness_MoveRegToRegCopies :
    FetchHypothesesMet [0x11#8, regId .r1, regId .r2] [1, 2] [1, 2] := by
  unfold FetchHypothesesMet; decide
theorem witness_MoveRegToMemStoresWord_fetch :
    FetchHypothesesMet [0x12#8, regId .acc, 0x00#8, 0x01#8] [1, 2, 3] [1] := by
  unfold FetchHypothesesMet; decide
theorem witness_MoveMemToRegLoadsWord_fetch :
    FetchHypothesesMet [0x13#8, 0x00#8, 0x01#8, regId .r1] [1, 2, 3] [3] := by
  unfold FetchHypothesesMet; decide
theorem witness_AddRegRegSumsIntoAcc :
    FetchHypothesesMet [0x14#8, regId .r1, regId .r2] [1, 2] [1, 2] := by
  unfold FetchHypothesesMet; decide
theorem witness_JmpNotEqBranchesOnAcc_fetch :
    FetchHypothesesMet [0x15#8, 0x00#8, 0x03#8, 0x00#8, 0x00#8] [1, 2, 3, 4] [] := by
  unfold FetchHypothesesMet; decide
theorem witness_PushLitPushesLiteral_fetch :
    FetchHypothesesMet [0x17#8, 0x12#8, 0x34#8] [1, 2] [] := by
  unfold FetchHypothesesMet; decide
theorem witness_PushRegPushesValue_fetch :
    FetchHypothesesMet [0x18#8, regId .sp] [1] [1] := by unfold FetchHypothesesMet; decide
theorem witness_PopLoadsTopOfStack_fetch :
    FetchHypothesesMet [0x19#8, regId .r8] [1] [1] := by unfold FetchHypothesesMet; decide
theorem witness_CallLitSavesFrameAndJumps_fetch :
    FetchHypothesesMet [0x5E#8, 0x00#8, 0x40#8] [1, 2] [] := by
  unfold FetchHypothesesMet; decide
theorem witness_CallRegSavesFrameAndJumps_fetch :
    FetchHypothesesMet [0x5F#8, regId .r3] [1] [1] := by unfold FetchHypothesesMet; decide
theorem witness_RetRestoresFrame_fetch : FetchHypothesesMet [0x60#8] [] [] := by
  unfold FetchHypothesesMet; decide
theorem witness_HltHaltsAndChangesNothingElse : FetchHypothesesMet [0xFF#8] [] [] := by
  unfold FetchHypothesesMet; decide

/-- The literal differing from ACC and equal to it, and a target without memory (BR-4). -/
theorem witness_JmpNotEqBranchesOnAcc :
    0x0001#16 ≠ State.reset.readReg .acc ∧ 0xFFFF#16 ≠ State.reset.readReg .acc ∧
      0x0000#16 = State.reset.readReg .acc ∧ State.reset.status = .running ∧
      State.reset.backed 0xFFFF#16 = false := by decide

/-- For MoveRegToMemStoresWord and MoveMemToRegLoadsWord.
The first and the last word with memory, the word across the wrap, and the two ways a word can
lack memory, at their least and greatest addresses. -/
theorem witness_word_access :
    State.reset.backedWord 0x0000#16 = true ∧ State.reset.backedWord 0xFFFD#16 = true ∧
    (State.constructed 65536).backedWord 0xFFFF#16 = true ∧
    State.reset.backed 0xFFFF#16 = false ∧ (State.constructed 2).backed 0x0002#16 = false ∧
    (State.reset.backed 0xFFFE#16 = true ∧ State.reset.backed (0xFFFE#16 + 1#16) = false) ∧
    ((State.constructed 2).backed 0x0001#16 = true ∧
      (State.constructed 2).backed (0x0001#16 + 1#16) = false) := by decide

/-- For PushLitPushesLiteral and PushRegPushesValue. The same at SP, for a push: the reset stack, SP at 0, and SP at and below the last byte. -/
theorem witness_push :
    State.reset.backedWord (State.reset.readReg .sp) = true ∧
    (let s := State.reset.writeReg .sp 0x0000#16; s.backedWord (s.readReg .sp) = true) ∧
    (let s := State.reset.writeReg .sp 0xFFFF#16; s.backed (s.readReg .sp) = false) ∧
    (let s := State.reset.writeReg .sp 0xFFFE#16
     s.backed (s.readReg .sp) = true ∧ s.backed (s.readReg .sp + 1#16) = false) := by decide

/-- For PopLoadsTopOfStack. The same at SP + 2, for a pop, with a register that is SP and one that is not. -/
theorem witness_pop :
    (let s := State.reset.writeReg .sp 0xFFFB#16; s.backedWord (s.readReg .sp + 2#16) = true) ∧
    (let s := State.constructed 65536; s.backedWord (s.readReg .sp + 2#16) = true) ∧
    State.reset.backed (State.reset.readReg .sp + 2#16) = false ∧
    (let s := State.reset.writeReg .sp 0xFFFC#16
     s.backed (s.readReg .sp + 2#16) = true ∧ s.backed (s.readReg .sp + 2#16 + 1#16) = false) ∧
    Reg.r1 ≠ .sp := by decide

/-- For CallLitSavesFrameAndJumps and CallRegSavesFrameAndJumps. A frame that fits, at the top of memory and with its last word at address 0; one whose first
word lacks memory in each of the two ways; one whose last word does. -/
theorem witness_call :
    (∀ k < 10, State.reset.backedWord (framePlace State.reset k) = true) ∧
    (let s := State.reset.writeReg .sp 18#16
     framePlace s 9 = 0x0000#16 ∧ ∀ k < 10, s.backedWord (framePlace s k) = true) ∧
    (let s := State.reset.writeReg .sp 0xFFFF#16; s.backed (framePlace s 0) = false) ∧
    (let s := State.reset.writeReg .sp 0xFFFE#16
     s.backed (framePlace s 0) = true ∧ s.backed (framePlace s 0 + 1#16) = false) ∧
    (let s := State.reset.writeReg .sp 16#16
     (∀ j < 9, s.backedWord (framePlace s j) = true) ∧ s.backed (framePlace s 9) = true ∧
       s.backed (framePlace s 9 + 1#16) = false) := by decide

/-- A frame with one argument that is all there; a Ret that faults at its first pop, at the count
(CR-1's second step) and at a discarded word. -/
theorem witness_RetRestoresFrame :
    (argCount atRet = 1 ∧ ∀ k < 11 + argCount atRet, atRet.backedWord (popPlace atRet k) = true) ∧
    State.reset.backed (popPlace State.reset 0) = false ∧
    (let s := State.reset.writeReg .fp 0xFFE9#16
     (∀ j < 10, s.backedWord (popPlace s j) = true) ∧ s.backed (popPlace s 10) = false) ∧
    (let s := placeBytes [0x00#8, 0x01#8] 0xFFFC#16 (State.reset.writeReg .fp 0xFFE6#16)
     argCount s = 1 ∧ (∀ j < 11, s.backedWord (popPlace s j) = true) ∧
       s.backed (popPlace s 11) = true ∧ s.backed (popPlace s 11 + 1#16) = false) := by decide

theorem witness_EncodeDecodeRoundTrip :
    decode [0x18#8, 0x01#8, 0xAA#8] = .ok (.pushReg .sp, [0xAA#8]) := rfl

theorem witness_OpcodeByteFixesLength :
    decode (0xFF#8 :: []) = .ok (.hlt, []) ∧
      decode (0x15#8 :: [0x00#8, 0x03#8, 0x00#8, 0x00#8]) = .ok (.jmpNotEq 3#16 0#16, []) :=
  ⟨rfl, rfl⟩

/-- Also across the end of the address space. -/
theorem witness_StepRunsDecodedInstruction :
    (let s := launch 65536 0xFFFE#16 [0x17#8, 0x12#8, 0x34#8]
     s.status = .running ∧ s.holdsBytes (s.readReg .ip) [0x17#8, 0x12#8, 0x34#8] = true) ∧
    decode [0x17#8, 0x12#8, 0x34#8] = .ok (.pushLit 0x1234#16, []) := ⟨by decide, rfl⟩

/-- Each of the three clauses, the last with no byte and with four. -/
theorem witness_StepFaultsInFetchOrder :
    ((launch 16 0x0000#16 [0x16#8]).status = .running ∧
      (launch 16 0x0000#16 [0x16#8]).holdsBytes 0x0000#16 [0x16#8] = true) ∧
    decode [0x16#8] = .error (.invalidInstruction 0x16#8) ∧
    (launch 16 0x0000#16 [0x18#8, 0x0C#8]).holdsBytes 0x0000#16 [0x18#8, 0x0C#8] = true ∧
    decode [0x18#8, 0x0C#8] = .error (.invalidRegister 0x0C#8) ∧
    decode [] = .error .truncated ∧ State.reset.backed 0xFFFF#16 = false ∧
    decode [0x15#8, 0x00#8, 0x03#8, 0x00#8] = .error .truncated ∧
    (launch 16 0x000C#16 [0x15#8, 0x00#8, 0x03#8, 0x00#8]).holdsBytes 0x000C#16
      [0x15#8, 0x00#8, 0x03#8, 0x00#8] = true ∧
    (launch 16 0x000C#16 []).backed (0x000C#16 + 4#16) = false :=
  ⟨by decide, rfl, by decide, rfl, rfl, by decide, rfl, by decide, by decide⟩

theorem witness_StepRejectsExactlyIllegalOpcodes :
    (let s := launch 65535 0xFFFE#16 [0x0F#8]
     s.status = .running ∧ s.backed (s.readReg .ip) = true ∧ s.byteAt (s.readReg .ip) = 0x0F#8 ∧
       ∀ v, opcodeByte v ≠ 0x0F#8) ∧
    (launch 65535 0xFFFF#16 []).backed 0xFFFF#16 = false :=
  ⟨⟨by decide, by decide, by decide, fun v => by cases v <;> decide⟩, by decide⟩

theorem witness_FetchOperationsAdvanceIp :
    (let s := launch 16 0x000E#16 [0x0B#8, 0x00#8]
     s.backed (s.readReg .ip) = true ∧ s.backedWord (s.readReg .ip) = true ∧
       (s.byteAt (s.readReg .ip)).toNat ≤ 0x0B) ∧
    (let s := launch 16 0x000F#16 [0x0C#8]
     s.backed (s.readReg .ip) = true ∧ s.backed (s.readReg .ip + 1#16) = false ∧
       0x0B < (s.byteAt (s.readReg .ip)).toNat) ∧
    (launch 16 0x0010#16 []).backed 0x0010#16 = false := by decide

theorem witness_StepLeavesIpAsListed :
    ∃ t, (launch 65535 0x000F#16 (encode (.jmpNotEq 3#16 0#16))).status = .running ∧
      (launch 65535 0x000F#16 (encode (.jmpNotEq 3#16 0#16))).holdsBytes 0x000F#16
        (encode (.jmpNotEq 3#16 0#16)) = true ∧
      step (launch 65535 0x000F#16 (encode (.jmpNotEq 3#16 0#16))) = .next t :=
  ⟨_, by decide, by decide, rfl⟩

/-- A running machine for each fault a step can answer. -/
theorem witness_StepFaultsHaveTheirCause :
    step (launch 65535 0xFFFF#16 []) = .fault (.boundsFault 0xFFFF#16) ∧
    step (launch 65535 0x0000#16 [0x16#8]) = .fault (.invalidInstruction 0x16#8) ∧
    step (launch 65535 0x0000#16 [0x19#8, 0x0C#8]) = .fault (.invalidRegister 0x0C#8) :=
  ⟨rfl, rfl, rfl⟩

theorem witness_OnlyHltHalts :
    (∃ t, step (launch 65535 0x0000#16 [0xFF#8]) = .next t ∧
      (launch 65535 0x0000#16 [0xFF#8]).byteAt 0x0000#16 = 0xFF#8) ∧
    ∃ t, step (launch 65535 0x0000#16 [0x17#8]) = .next t ∧
      (launch 65535 0x0000#16 [0x17#8]).byteAt 0x0000#16 ≠ 0xFF#8 :=
  ⟨⟨_, rfl, by decide⟩, ⟨_, rfl, by decide⟩⟩

theorem witness_FinalStatusesAreFinal :
    (State.reset.withStatus .halted).status = .halted ∧
      (State.reset.withStatus (.faulted (.boundsFault 0xFFFF#16))).status
        = .faulted (.boundsFault 0xFFFF#16) := by decide

/-- For ConstructedMachinesMeetInvariant, RegistersAtReset and ConstructionSetsAllButRegisters: the
least capacity, the default and the greatest. -/
theorem witness_construct :
    State.construct 2 = .ok (State.constructed 2) ∧
      State.construct 65535 = .ok (State.constructed 65535) ∧
      State.construct 65536 = .ok (State.constructed 65536) := ⟨rfl, rfl, rfl⟩

theorem witness_StepKeepsInvariant :
    ∃ t, (launch 65535 0x0000#16 [0x17#8, 0x12#8, 0x34#8]).Inv ∧
      step (launch 65535 0x0000#16 [0x17#8, 0x12#8, 0x34#8]) = .next t :=
  ⟨_, by decide, rfl⟩

/-- A step that goes on, and a driver's step that faults. -/
theorem witness_CapacityIsFixed :
    (∃ t, step (launch 16 0x0000#16 [0x17#8, 0x12#8, 0x34#8]) = .next t) ∧
      ∃ any t, driverStep any (launch 16 0x0000#16 [0x16#8])
        = .ok (.fault (.invalidInstruction 0x16#8), t) :=
  ⟨⟨_, rfl⟩, ⟨⟨State.reset.regs, 0#16, []⟩, _, rfl⟩⟩

/-- A register that a Pop leaves alone. -/
theorem witness_OnlyListedWritersChangeRegisters :
    (∃ t, exec (.pop .r1) (State.constructed 65536) = .next t) ∧ (Instr.pop .r1).dest? ≠ some .r2 ∧
      Reg.r2 ∉ implicitWrites (.pop .r1) := ⟨⟨_, rfl⟩, by decide, by decide⟩

/-- The bytes on each side of a stored word. -/
theorem witness_OnlyStoredBytesChange :
    (∃ t, exec (.moveRegToMem .r1 0x0100#16) State.reset = .next t) ∧
      ¬ storesTo (.moveRegToMem .r1 0x0100#16) State.reset 0x00FF#16 ∧
      ¬ storesTo (.moveRegToMem .r1 0x0100#16) State.reset 0x0102#16 :=
  ⟨⟨_, rfl⟩, by unfold storesTo; decide, by unfold storesTo; decide⟩

/-- A fault, a Ret, a call with a byte beside its counter word, and another instruction. -/
theorem witness_CounterIsSeenOnlyThroughFrames :
    exec (.pop .r1) State.reset = .fault (.boundsFault 0xFFFF#16) ∧
    (∃ t, exec .ret (State.constructed 65536) = .next t) ∧
    (∃ t, exec (.callLit 0x0040#16) State.reset = .next t ∧
      0xFFED#16 ≠ framePlace State.reset 9 ∧ 0xFFED#16 ≠ framePlace State.reset 9 + 1#16) ∧
    ∃ t, exec (.pushLit 0x0001#16) State.reset = .next t ∧
      (Instr.pushLit 0x0001#16).opcode ≠ .callLit ∧ (Instr.pushLit 0x0001#16).opcode ≠ .callReg ∧
      (Instr.pushLit 0x0001#16).opcode ≠ .ret :=
  ⟨rfl, ⟨_, rfl⟩, ⟨_, rfl, by decide, by decide⟩, ⟨_, rfl, by decide, by decide, by decide⟩⟩

/-- Two distinct registers. -/
theorem witness_RegisterFileReadsBack : Reg.sp ≠ .fp := by decide

/-- The last byte, the first absent one, a word half absent, the last word, and a word across the
wrap. -/
theorem witness_MemReadIsBigEndianAndChecked :
    (0xFFFE#16).toNat < State.reset.memSize ∧ State.reset.memSize ≤ (0xFFFF#16).toNat ∧
    State.reset.memSize ≤ (0xFFFE#16 + 1#16).toNat ∧
    ((0xFFFD#16).toNat < State.reset.memSize ∧ (0xFFFD#16 + 1#16).toNat < State.reset.memSize) ∧
    ((0xFFFF#16).toNat < (State.constructed 65536).memSize ∧
      (0xFFFF#16 + 1#16).toNat < (State.constructed 65536).memSize) := by decide

/-- For WordRoundTrip and StoreIsSeenByNextFetch: the last word, and one across the wrap. -/
theorem witness_word_round_trip_and_store_seen :
    State.reset.backedWord 0xFFFD#16 = true ∧
      (State.constructed 65536).backedWord 0xFFFF#16 = true := by decide

/-- Every word has memory when the capacity is the whole address space. -/
theorem backedWord_of_full {s : State} (h : s.memSize = 65536) (a : Word) :
    s.backedWord a = true := by
  rw [State.backedWord_iff, State.backed_iff, State.backed_iff, h]
  exact ⟨a.isLt, (a + 1#16).isLt⟩

/-- None, two, and the most words the statement allows. -/
theorem witness_PushPopRoundTrip :
    (∃ t, pushWords [] State.reset = .ok t) ∧
    (∃ t, pushWords [0x1234#16, 0x5678#16] State.reset = .ok t) ∧
    ∃ vs : List Word, vs.length = 32768 ∧ ∃ t, pushWords vs (State.constructed 65536) = .ok t :=
  ⟨⟨_, rfl⟩, ⟨_, rfl⟩, List.replicate 32768 0#16, List.length_replicate, _,
    pushWords_eq_ok.mpr ⟨fun _ _ => backedWord_of_full rfl _, rfl⟩⟩

/-- A call answers when the capacity is the whole address space. -/
theorem call_of_full {s : State} (h : s.memSize = 65536) (l : Word) (r : Reg) :
    exec (.callLit l) s = .next (s.saved.writeReg .ip l) ∧
      exec (.callReg r) s = .next (s.saved.writeReg .ip (s.readReg r)) := by
  have hs : saveState s = .ok s.saved :=
    saveState_eq_ok.mpr ⟨fun _ _ => backedWord_of_full h _, rfl⟩
  simp [exec, execCallLit, execCallReg, hs]

/-- A call on a machine whose word above the frame is `c`, with the callee returning at once: all of
the hypotheses, for a call by literal and one by register. -/
theorem witness_CallReturnPair (c : Word) :
    ∃ s t : State, (∃ l, exec (.callLit l) s = .next t) ∧ (∃ r, exec (.callReg r) s = .next t) ∧
      (t.wordAt (s.readReg .sp + 2#16)).toNat = c.toNat ∧
      ∀ j ≤ c.toNat, t.backedWord (s.readReg .sp + BitVec.ofNat 16 (2 + 2 * j)) = true := by
  let s := (State.constructed 65536).putWord 0x0000#16 c
  have hc := call_of_full (s := s) rfl 0x0000#16 .r1
  refine ⟨s, _, ⟨_, hc.1⟩, ⟨.r1, hc.2⟩, ?_, fun j _ => backedWord_of_full ?_ _⟩
  · have hsp : s.readReg .sp = 0xFFFE#16 := rfl
    have hw : s.wordAt 0x0000#16 = c := State.wordAt_putWord_same _ _ _
    rw [State.writeReg_wordAt, hsp, show 0xFFFE#16 + 2#16 = 0x0000#16 from rfl, ← hw]
    unfold State.wordAt
    rw [State.saved_byteAt _ _ (by rw [hsp]; decide), State.saved_byteAt _ _ (by rw [hsp]; decide)]
  · rw [State.writeReg_memSize, State.saved_memSize]; rfl

/-- The least and the greatest count. -/
theorem witness_CallReturnPair_ends : (0x0000#16).toNat = 0 ∧ (0xFFFF#16).toNat = 65535 := by
  decide

/-- Two arguments (CR-8) and none (CR-2). -/
theorem witness_ArgumentDiscard :
    (∃ s1 s2, pushWords ([0x1111#16, 0x2222#16] ++ [BitVec.ofNat 16 2]) State.reset = .ok s1 ∧
      exec (.callLit 0x0040#16) s1 = .next s2) ∧
    ∃ s1 s2, pushWords ([] ++ [BitVec.ofNat 16 0]) State.reset = .ok s1 ∧
      exec (.callLit 0x0040#16) s1 = .next s2 := ⟨⟨_, _, rfl, rfl⟩, ⟨_, _, rfl, rfl⟩⟩

/-- The most arguments the statement allows. -/
theorem witness_ArgumentDiscard_most :
    ∃ args : List Word, args.length + 11 = 32768 ∧ ∃ s1 s2,
      pushWords (args ++ [BitVec.ofNat 16 args.length]) (State.constructed 65536) = .ok s1 ∧
      exec (.callLit 0x0040#16) s1 = .next s2 := by
  refine ⟨List.replicate 32757 0#16, by rw [List.length_replicate], _, _, pushWords_eq_ok.mpr
    ⟨fun _ _ => backedWord_of_full rfl _, rfl⟩, (call_of_full ?_ _ .ip).1⟩
  rw [State.pushedWords_memSize]; rfl

theorem witness_EmptyStackFaultsAtCapacity :
    State.construct 2 = .ok (State.constructed 2) ∧ 2 ≤ 65535 ∧
      State.construct 65535 = .ok (State.constructed 65535) := ⟨rfl, by decide, rfl⟩

theorem witness_FaultIsReportedAndKept :
    (launch 65535 0x0000#16 [0x16#8]).status = .running ∧
      step (launch 65535 0x0000#16 [0x16#8]) = .fault (.invalidInstruction 0x16#8) :=
  ⟨by decide, rfl⟩

/-- A run that ends Halted and one that ends in a fault, each as soon as it can and with steps to
spare. -/
theorem witness_EndedRunsStayEnded :
    (∃ t, drive 1 (launch 65535 0x0000#16 [0xFF#8]) = .halted t) ∧
      drive 1 (launch 65535 0x0000#16 [0x16#8]) = .faulted (.invalidInstruction 0x16#8) ∧ 1 ≤ 2 :=
  ⟨⟨_, rfl⟩, rfl, by decide⟩

theorem witness_HostWritesMakeLaunchStates :
    State.reset.memSize ≤ 65535 ∧ 65534 < State.reset.memSize ∧ State.reset.Inv := by decide

end Sys2Proof.Tests
end

section
/-! PROOFS. The register file right after construction (spec/10_state.md R21). -/

namespace Sys2Proof

/-- The capacities of spec/00_scope.md R6, as bounds. -/
theorem legalCapacity_iff {L : Nat} : legalCapacity L = true ↔ 2 ≤ L ∧ L ≤ 65536 := by
  rw [legalCapacity, Bool.and_eq_true, decide_eq_true_iff, decide_eq_true_iff]
  rfl

/-- Every byte up to 0x0B is decoded to a register: the decoder has an arm for each of them. -/
theorem exists_regOfId_eq_some {b : Byte} (h : legalRegisterId b = true) :
    ∃ r, regOfId b = some r := by
  have hb : b.toNat ≤ 0x0B := of_decide_eq_true h
  unfold regOfId
  generalize b.toNat = n at hb
  interval_cases n <;> exact ⟨_, rfl⟩

/-- The ids of the registers are exactly the legal ids (spec/30_encoding.md R74, R77). -/
theorem exists_regId_eq_iff (b : Byte) : (∃ r, regId r = b) ↔ legalRegisterId b = true := by
  constructor
  · rintro ⟨r, rfl⟩
    exact Laws.legalRegisterId_regId r
  · intro h
    obtain ⟨r, hr⟩ := exists_regOfId_eq_some h
    exact ⟨r, (regOfId_eq_some.mp hr).symm⟩

end Sys2Proof

namespace Sys2Proof.Machine

/-- Construction answers exactly for a legal capacity, and then with the constructed machine. -/
theorem State.construct_eq_ok {L : Nat} {s : State} :
    State.construct L = .ok s ↔ (2 ≤ L ∧ L ≤ 65536) ∧ s = State.constructed L := by
  rw [← legalCapacity_iff, State.construct]
  cases legalCapacity L with
  | true => simp [eq_comm]
  | false => simp

section
variable (L : Nat)

@[simp] theorem State.constructed_sp :
    (State.constructed L).readReg .sp = BitVec.ofNat 16 (L - 2) := rfl
@[simp] theorem State.constructed_fp :
    (State.constructed L).readReg .fp = BitVec.ofNat 16 (L - 2) := rfl

/-- "Registers zeroed except SP/FP" (spec/10_state.md R21). -/
theorem State.constructed_readReg {r : Reg} (hsp : r ≠ .sp) (hfp : r ≠ .fp) :
    (State.constructed L).readReg r = 0#16 := by
  cases r with
  | sp => exact absurd rfl hsp
  | fp => exact absurd rfl hfp
  | _ => rfl

end

/-- The reset value of SP and FP is a 16-bit number for every legal capacity, 65536 included. -/
theorem toNat_stackTop {L : Nat} (hL : L ≤ 65536) : (BitVec.ofNat 16 (L - 2)).toNat = L - 2 := by
  rw [BitVec.toNat_ofNat]
  exact Nat.mod_eq_of_lt (by omega)

/-- Settles O35: the ids by evaluation, the legal ids by the decoder's arms, and the reset values
from what construction answers. -/
theorem registersAtReset : Obligations.RegistersAtReset := by
  unfold Obligations.RegistersAtReset
  refine ⟨rfl, rfl, rfl, rfl, rfl, rfl, rfl, rfl, rfl, rfl, rfl, rfl, exists_regId_eq_iff,
    State.constructed_sp _, State.constructed_fp _, fun L s hs => ?_⟩
  obtain ⟨⟨_, hL⟩, rfl⟩ := State.construct_eq_ok.mp hs
  have htop := toNat_stackTop hL
  exact ⟨by rw [State.constructed_sp, htop], by rw [State.constructed_fp, htop],
    fun _ hsp hfp => State.constructed_readReg L hsp hfp⟩

end Sys2Proof.Machine
end

section
/-! PROOFS. The checked reads of the memory array (spec/20_memory.md R53). -/

namespace Sys2Proof.Machine

theorem State.backed_eq_false_iff {s : State} {a : Word} :
    s.backed a = false ↔ s.memSize ≤ a.toNat := by
  rw [← Bool.not_eq_true, State.backed_iff, Nat.not_lt]

/-- A word whose first address has no memory faults there, before the second is looked at. -/
theorem memRead16_of_first_unbacked {s : State} {a : Word} (h : s.backed a = false) :
    memRead16 a s = .error (.boundsFault a) :=
  memRead16_eq_error.mpr ⟨by simp [State.backedWord, h], by simp [State.wordFault, h]⟩

/-- A word of which only the second address has no memory faults at the second. -/
theorem memRead16_of_second_unbacked {s : State} {a : Word} (h : s.backed a = true)
    (h' : s.backed (a + 1#16) = false) : memRead16 a s = .error (.boundsFault (a + 1#16)) :=
  memRead16_eq_error.mpr ⟨by simp [State.backedWord, h'], by simp [State.wordFault, h]⟩

/-- The number a word in memory stands for, high byte first (spec/20_memory.md R55). -/
theorem State.toNat_wordAt (s : State) (a : Word) :
    (s.wordAt a).toNat = (s.byteAt a).toNat * 256 + (s.byteAt (a + 1#16)).toNat :=
  toNat_wordOfBytes _ _

/-- Settles O38, one clause for each place the read can stop and two for its answers. -/
theorem memReadIsBigEndianAndChecked : Obligations.MemReadIsBigEndianAndChecked := by
  unfold Obligations.MemReadIsBigEndianAndChecked
  intro a s
  rw [← State.backed_iff, ← State.backed_eq_false_iff, ← State.backed_eq_false_iff,
    ← State.backed_iff]
  refine ⟨fun ha => ?byte, fun ha => ?first, fun ha hb => ?second, fun ha hb => ?word⟩
  case byte => exact memRead8_eq_ok.mpr ⟨ha, rfl⟩
  case first => exact ⟨memRead8_eq_error.mpr ⟨ha, rfl⟩, memRead16_of_first_unbacked ha⟩
  case second => exact memRead16_of_second_unbacked ha hb
  case word =>
    have hword : s.backedWord a = true := State.backedWord_iff.mpr ⟨ha, hb⟩
    exact ⟨s.wordAt a, memRead16_eq_ok.mpr ⟨hword, rfl⟩, s.toNat_wordAt a⟩

end Sys2Proof.Machine
end

section
/-! PROOFS. The opcode decode is closed (spec/40_fetch_decode.md R94): the 13 opcode bytes have their
variants and every other byte is rejected, by the opcode decode and by nothing after it. -/

namespace Sys2Proof

/-! ## Opcode bytes -/

/-- The legal opcode bytes are what the four illegal ranges of spec/30_encoding.md R76 leave. -/
theorem legalOpcode_iff {b : Byte} :
    legalOpcode b = true ↔ (0x10 ≤ b.toNat ∧ b.toNat ≤ 0x15) ∨ (0x17 ≤ b.toNat ∧ b.toNat ≤ 0x19) ∨
      (0x5E ≤ b.toNat ∧ b.toNat ≤ 0x60) ∨ b.toNat = 0xFF := by
  have hb : b.toNat < 256 := b.isLt
  simp only [legalOpcode, Bool.not_eq_true', Bool.or_eq_false_iff, Bool.and_eq_false_iff,
    decide_eq_false_iff_not, beq_eq_false_iff_ne]
  omega

/-- Every legal opcode byte is decoded to a variant: the decoder has an arm for each of them. -/
theorem exists_opcodeOfByte_eq_some {b : Byte} (h : legalOpcode b = true) :
    ∃ v, opcodeOfByte b = some v := by
  have hb := legalOpcode_iff.mp h
  unfold opcodeOfByte
  generalize b.toNat = n at hb
  obtain ⟨hlo, hhi⟩ | ⟨hlo, hhi⟩ | ⟨hlo, hhi⟩ | rfl := hb
  · interval_cases n <;> exact ⟨_, rfl⟩
  · interval_cases n <;> exact ⟨_, rfl⟩
  · interval_cases n <;> exact ⟨_, rfl⟩
  · exact ⟨_, rfl⟩

theorem legalOpcode_opcodeByte (v : Opcode) : legalOpcode (opcodeByte v) = true := by
  cases v <;> rfl

/-- The decoder's default arm takes exactly the illegal opcode bytes. -/
theorem opcodeOfByte_eq_none_iff {b : Byte} : opcodeOfByte b = none ↔ legalOpcode b = false := by
  constructor
  · intro hnone
    cases hlegal : legalOpcode b with
    | false => rfl
    | true =>
      obtain ⟨v, hv⟩ := exists_opcodeOfByte_eq_some hlegal
      rw [hnone] at hv
      contradiction
  · intro hillegal
    cases hv : opcodeOfByte b with
    | none => rfl
    | some v =>
      rw [opcodeOfByte_eq_some.mp hv, legalOpcode_opcodeByte] at hillegal
      contradiction

/-! ## The decoder on a list of bytes -/

theorem decode_cons_of_none {op : Byte} (rest : List Byte) (h : opcodeOfByte op = none) :
    decode (op :: rest) = .error (.invalidInstruction op) := by
  simp [decode, decodeFrom, listSource, listFetch8, bind, Except.bind, h]

theorem decode_cons_of_some {op : Byte} {v : Opcode} (rest : List Byte)
    (h : opcodeOfByte op = some v) : decode (op :: rest) = fetchOperands listSource v rest := by
  simp [decode, decodeFrom, listSource, listFetch8, bind, Except.bind, h]

/-- The read never answers InvalidInstruction, whatever bytes it is given. -/
def AcceptsOpcode {α : Type} (read : List Byte → Except DecodeError (α × List Byte)) : Prop :=
  ∀ bs op, read bs ≠ .error (.invalidInstruction op)

theorem AcceptsOpcode.value {α : Type} (x : α) : AcceptsOpcode (fun bs => .ok (x, bs)) :=
  nofun

theorem AcceptsOpcode.bind {α β : Type} {read : List Byte → Except DecodeError (α × List Byte)}
    {read' : α → List Byte → Except DecodeError (β × List Byte)}
    (h : AcceptsOpcode read) (h' : ∀ x, AcceptsOpcode (read' x)) :
    AcceptsOpcode (fun bs => read bs >>= fun p => read' p.1 p.2) := by
  intro bs op
  change (read bs >>= fun p => read' p.1 p.2) ≠ _
  cases hr : read bs with
  | error e =>
    intro he
    obtain rfl : e = .invalidInstruction op := Except.error.inj he
    exact h bs op hr
  | ok p => exact h' p.1 p.2 op

theorem acceptsOpcode_fetch8 : AcceptsOpcode listFetch8 := by
  intro bs op
  cases bs <;> simp [listFetch8]

theorem acceptsOpcode_fetch16 : AcceptsOpcode listFetch16 := by
  intro bs op
  rcases bs with _ | ⟨b, _ | ⟨c, bs⟩⟩ <;> simp [listFetch16]

theorem acceptsOpcode_fetchReg : AcceptsOpcode (fetchReg listSource) := by
  have h : ∀ b : Byte, AcceptsOpcode (fun bs => match regOfId b with
      | some r => .ok (r, bs)
      | none => .error (.invalidRegister b)) := by
    intro b
    cases regOfId b with
    | none => intro bs op; simp
    | some r => exact .value r
  exact acceptsOpcode_fetch8.bind h

/-- Once the opcode has a variant, its operand fields can be cut short or name no register, but
nothing in them makes the instruction invalid. -/
theorem acceptsOpcode_fetchOperands (v : Opcode) : AcceptsOpcode (fetchOperands listSource v) := by
  have word := acceptsOpcode_fetch16
  have reg := acceptsOpcode_fetchReg
  cases v with
  | moveLitToReg => exact word.bind fun _ => reg.bind fun _ => .value _
  | moveRegToReg => exact reg.bind fun _ => reg.bind fun _ => .value _
  | moveRegToMem => exact reg.bind fun _ => word.bind fun _ => .value _
  | moveMemToReg => exact word.bind fun _ => reg.bind fun _ => .value _
  | addRegReg => exact reg.bind fun _ => reg.bind fun _ => .value _
  | jmpNotEq => exact word.bind fun _ => word.bind fun _ => .value _
  | pushLit => exact word.bind fun _ => .value _
  | pushReg => exact reg.bind fun _ => .value _
  | pop => exact reg.bind fun _ => .value _
  | callLit => exact word.bind fun _ => .value _
  | callReg => exact reg.bind fun _ => .value _
  | ret => exact .value _
  | hlt => exact .value _

/-- InvalidInstruction comes from the opcode byte alone. -/
theorem decode_cons_eq_invalidInstruction_iff (op : Byte) (rest : List Byte) :
    decode (op :: rest) = .error (.invalidInstruction op) ↔ opcodeOfByte op = none := by
  constructor
  · intro hd
    cases hv : opcodeOfByte op with
    | none => rfl
    | some v =>
      rw [decode_cons_of_some rest hv] at hd
      exact absurd hd (acceptsOpcode_fetchOperands v rest op)
  · exact decode_cons_of_none rest

/-- Settles O18: the 13 bytes by evaluation; for the rest, the opcode decode alone rejects, and it
rejects the illegal bytes. -/
theorem opcodeDecodeIsClosed : Obligations.OpcodeDecodeIsClosed := by
  unfold Obligations.OpcodeDecodeIsClosed
  refine ⟨rfl, rfl, rfl, rfl, rfl, rfl, rfl, rfl, rfl, rfl, rfl, rfl, rfl, fun op rest => ?_⟩
  rw [decode_cons_eq_invalidInstruction_iff, opcodeOfByte_eq_none_iff]

end Sys2Proof
end

section
/-! PROOFS. The fetch operations at IP (spec/40_fetch_decode.md R91 to R93). -/

namespace Sys2Proof

theorem legalRegisterId_iff {b : Byte} : legalRegisterId b = true ↔ b.toNat ≤ 0x0B :=
  decide_eq_true_iff

/-- No byte above 0x0B is decoded to a register, the ids of the registers being legal. -/
theorem regOfId_eq_none {b : Byte} (h : 0x0B < b.toNat) : regOfId b = none := by
  cases hr : regOfId b with
  | none => rfl
  | some r =>
    have hle : b.toNat ≤ 0x0B :=
      legalRegisterId_iff.mp ((exists_regId_eq_iff b).mp ⟨r, (regOfId_eq_some.mp hr).symm⟩)
    omega

end Sys2Proof

namespace Sys2Proof.Machine

theorem fetch8_of_backed {s : State} (h : s.backed (s.readReg .ip) = true) :
    fetch8 s = .ok (s.byteAt (s.readReg .ip), s.writeReg .ip (s.readReg .ip + 1#16)) :=
  fetch8_eq_ok.mpr ⟨h, rfl, rfl⟩

theorem fetch8_of_unbacked {s : State} (h : s.backed (s.readReg .ip) = false) :
    fetch8 s = .error (.boundsFault (s.readReg .ip)) :=
  fetch8_eq_error.mpr ⟨h, rfl⟩

/-- `fetch16` faults where its memory read does. -/
theorem fetch16_of_memRead16_error {s : State} {f : Fault}
    (h : memRead16 (s.readReg .ip) s = .error f) : fetch16 s = .error f :=
  fetch16_eq_error.mpr (memRead16_eq_error.mp h)

/-- `fetchReg` faults where its byte fetch does. -/
theorem fetchReg_of_fetch8_error {s : State} {f : Fault} (h : fetch8 s = .error f) :
    fetchReg machineSource s = .error f :=
  bind_eq_error.mpr (.inl h)

theorem fetchReg_of_register {s t : State} {b : Byte} {r : Reg} (h : fetch8 s = .ok (b, t))
    (hr : regOfId b = some r) : fetchReg machineSource s = .ok (r, t) :=
  bind_eq_ok.mpr ⟨(b, t), h, by simp only [hr]⟩

theorem fetchReg_of_no_register {s t : State} {b : Byte} (h : fetch8 s = .ok (b, t))
    (hr : regOfId b = none) : fetchReg machineSource s = .error (.invalidRegister b) :=
  bind_eq_error.mpr (.inr ⟨(b, t), h, by simp only [hr]; rfl⟩)

/-- Settles O23, one case for each way a fetch can end. -/
theorem fetchOperationsAdvanceIp : Obligations.FetchOperationsAdvanceIp := by
  unfold Obligations.FetchOperationsAdvanceIp
  intro s
  refine ⟨fetch8_of_backed, fetch8_of_unbacked, fun hword => ?word, fun hip => ?first,
    fun hip hnext => ?second, fun hip => ?noByte, fun hip => ⟨fun habove => ?illegalId,
    fun hle => ?legalId⟩⟩
  case word => exact fetch16_eq_ok.mpr ⟨hword, rfl, rfl⟩
  case first => exact fetch16_of_memRead16_error (memRead16_of_first_unbacked hip)
  case second => exact fetch16_of_memRead16_error (memRead16_of_second_unbacked hip hnext)
  case noByte => exact fetchReg_of_fetch8_error (fetch8_of_unbacked hip)
  case illegalId => exact fetchReg_of_no_register (fetch8_of_backed hip) (regOfId_eq_none habove)
  case legalId =>
    obtain ⟨r, hr⟩ := exists_regOfId_eq_some (legalRegisterId_iff.mpr hle)
    exact ⟨r, (regOfId_eq_some.mp hr).symm, fetchReg_of_register (fetch8_of_backed hip) hr⟩

end Sys2Proof.Machine
end

section
/-! PROOFS. A step whose instruction is given by the bytes at IP (spec/40_fetch_decode.md R90, R95):
what the decoder answers on those bytes says how the step begins. -/

namespace Sys2Proof.Machine

open Sys2Proof.Claims

theorem step_of_fetchInstr_ok {s u : State} {i : Instr} (hrun : s.status = .running)
    (hf : fetchInstr s = .ok (i, u)) : step s = exec i u := by
  simp only [step, hrun, hf]

theorem step_of_fetchInstr_error {s : State} {f : Fault} (hrun : s.status = .running)
    (hf : fetchInstr s = .error f) : step s = .fault f := by
  simp only [step, hrun, hf]

/-- Bytes that decode to `i` with none left over run `i`. -/
theorem runsAs_of_decode {bs : List Byte} {i : Instr} (hd : decode bs = .ok (i, [])) (s : State) :
    RunsAs s bs i := by
  intro hrun hbytes
  have hfetch := readsAlike_fetchInstr s bs hbytes
  rw [hd] at hfetch
  obtain ⟨n, hn, hok, -⟩ := hfetch
  obtain rfl : n = bs.length := by simpa using hn
  exact step_of_fetchInstr_ok hrun hok

/-- Bytes that end inside an instruction fault at the byte after them when it has no memory. -/
theorem boundsFaultAfter_of_decode {bs : List Byte} (hd : decode bs = .error .truncated)
    (s : State) : BoundsFaultAfter s bs := by
  intro hrun hbytes hend
  have hfetch := readsAlike_fetchInstr s bs hbytes
  rw [hd] at hfetch
  exact step_of_fetchInstr_error hrun (hfetch hend)

/-- Where the decoder rejects every illegal register id after `bs`, so does the step. -/
theorem invalidRegisterAfter_of_decode {bs : List Byte}
    (hd : ∀ b, legalRegisterId b = false → decode (bs ++ [b]) = .error (.invalidRegister b))
    (s : State) : InvalidRegisterAfter s bs := by
  intro b hb hrun hbytes
  have hfetch := readsAlike_fetchInstr s (bs ++ [b]) hbytes
  rw [hd b hb] at hfetch
  exact step_of_fetchInstr_error hrun hfetch

end Sys2Proof.Machine
end

section
/-! PROOFS. The instructions of format FLR, a word field and then a register id
(spec/30_encoding.md R71): which bytes run one, and how each of its fields faults. -/

namespace Sys2Proof

/-- An illegal register id names no register (spec/30_encoding.md R77). -/
theorem regOfId_eq_none_of_illegal {b : Byte} (h : legalRegisterId b = false) :
    regOfId b = none := by
  refine regOfId_eq_none (Nat.lt_of_not_le fun hle => ?_)
  simp [legalRegisterId_iff.mpr hle] at h

@[simp] theorem listFetchReg_nil : fetchReg listSource [] = .error .truncated := rfl

@[simp] theorem listFetchReg_regId (r : Reg) (bs : List Byte) :
    fetchReg listSource (regId r :: bs) = .ok (r, bs) := by
  simp [fetchReg, listSource, listFetch8, bind, Except.bind]

theorem listFetchReg_illegal {b : Byte} (h : legalRegisterId b = false) (bs : List Byte) :
    fetchReg listSource (b :: bs) = .error (.invalidRegister b) := by
  simp [fetchReg, listSource, listFetch8, bind, Except.bind, regOfId_eq_none_of_illegal h]

/-- The decoder reads the byte `op` as the opcode of an instruction with a word field and then a
register field, which `mk` makes of the two. -/
def DecodesWordThenReg (op : Byte) (mk : Word → Reg → Instr) : Prop :=
  ∀ bs, decode (op :: bs) = (do
    let (w, bs) ← listFetch16 bs
    let (r, bs) ← fetchReg listSource bs
    .ok (mk w r, bs))

theorem decodesWordThenReg_moveLitToReg : DecodesWordThenReg 0x10#8 .moveLitToReg :=
  fun bs => decode_cons_of_some (v := .moveLitToReg) bs rfl

theorem decodesWordThenReg_moveMemToReg : DecodesWordThenReg 0x13#8 .moveMemToReg :=
  fun bs => decode_cons_of_some (v := .moveMemToReg) bs rfl

namespace DecodesWordThenReg
variable {op : Byte} {mk : Word → Reg → Instr}

theorem decode_opcode (hop : DecodesWordThenReg op mk) : decode [op] = .error .truncated :=
  hop []

theorem decode_opcode_hi (hop : DecodesWordThenReg op mk) (h : Byte) :
    decode [op, h] = .error .truncated :=
  hop [h]

/-- With the whole word there, what is left to decode is the register field. -/
theorem decode_word (hop : DecodesWordThenReg op mk) (h l : Byte) (bs : List Byte) :
    decode (op :: h :: l :: bs) =
      (fetchReg listSource bs).map fun p => (mk (wordOfBytes h l) p.1, p.2) := by
  rw [hop]
  change (fetchReg listSource bs >>= fun p => _) = _
  cases fetchReg listSource bs <;> rfl

end DecodesWordThenReg

end Sys2Proof

namespace Sys2Proof.Machine

open Sys2Proof.Claims

/-- The encoding part of a statement about an instruction of format FLR. -/
theorem step_of_wordThenReg {op : Byte} {mk : Word → Reg → Instr}
    (hop : DecodesWordThenReg op mk) (s : State) (h l : Byte) (d : Reg) :
    RunsAs s [op, h, l, regId d] (mk (wordOfBytes h l) d) ∧
      BoundsFaultAfter s [op] ∧ BoundsFaultAfter s [op, h] ∧ BoundsFaultAfter s [op, h, l] ∧
      InvalidRegisterAfter s [op, h, l] := by
  refine ⟨runsAs_of_decode ?whole s, boundsFaultAfter_of_decode hop.decode_opcode s,
    boundsFaultAfter_of_decode (hop.decode_opcode_hi h) s, boundsFaultAfter_of_decode ?noId s,
    invalidRegisterAfter_of_decode (fun b hb => ?illegalId) s⟩
  case whole => rw [hop.decode_word, listFetchReg_regId]; rfl
  case noId => rw [hop.decode_word, listFetchReg_nil]; rfl
  case illegalId =>
    change decode [op, h, l, b] = _
    rw [hop.decode_word, listFetchReg_illegal hb]; rfl

end Sys2Proof.Machine
end

section
/-! PROOFS. The two Move instructions of format FLR (spec/41_data_movement.md R110, R113). -/

namespace Sys2Proof.Machine

open Sys2Proof.Claims

theorem exec_moveLitToReg (lit : Word) (d : Reg) (s : State) :
    exec (.moveLitToReg lit d) s = .next (s.writeReg d lit) := rfl

theorem exec_moveMemToReg_of_memRead16_ok {a v : Word} {s : State} (h : memRead16 a s = .ok v)
    (d : Reg) : exec (.moveMemToReg a d) s = .next (s.writeReg d v) := by
  simp only [exec, execMoveMemToReg, h, ok_bind, outcome_ok]

theorem exec_moveMemToReg_of_memRead16_error {a : Word} {s : State} {f : Fault}
    (h : memRead16 a s = .error f) (d : Reg) : exec (.moveMemToReg a d) s = .fault f := by
  simp only [exec, execMoveMemToReg, h, error_bind, outcome_error]

/-- A register write leaves every other register alone (spec/10_state.md R25). -/
theorem sameRegsExcept_writeReg (s : State) (d : Reg) (v : Word) :
    SameRegsExcept s (s.writeReg d v) [d] := by
  intro r hr
  exact State.readReg_writeReg_ne s d r v (by simpa using hr)

theorem onlyRegsChange_writeReg (s : State) (d : Reg) (v : Word) :
    OnlyRegsChange s (s.writeReg d v) :=
  ⟨rfl, rfl, rfl, rfl⟩

/-- Settles O1: the effect is one register write, the encoding is format FLR's. -/
theorem moveLitToRegWritesLiteral : Obligations.MoveLitToRegWritesLiteral := by
  unfold Obligations.MoveLitToRegWritesLiteral
  refine ⟨fun lit d s => ?effect, step_of_wordThenReg decodesWordThenReg_moveLitToReg⟩
  case effect =>
    exact ⟨s.writeReg d lit, exec_moveLitToReg lit d s, State.readReg_writeReg_same s d lit,
      sameRegsExcept_writeReg s d lit, onlyRegsChange_writeReg s d lit⟩

/-- Settles O4: the effect is one register write of the word that the checked read answers, the
data faults are the read's, the encoding is format FLR's. -/
theorem moveMemToRegLoadsWord : Obligations.MoveMemToRegLoadsWord := by
  unfold Obligations.MoveMemToRegLoadsWord
  refine ⟨fun a d s hword => ?effect, fun a d s => ⟨fun ha => ?first, fun ha hb => ?second⟩,
    step_of_wordThenReg decodesWordThenReg_moveMemToReg⟩
  case effect =>
    have hread : memRead16 a s = .ok (s.wordAt a) := memRead16_eq_ok.mpr ⟨hword, rfl⟩
    exact ⟨s.writeReg d (s.wordAt a), exec_moveMemToReg_of_memRead16_ok hread d,
      State.readReg_writeReg_same s d (s.wordAt a), sameRegsExcept_writeReg s d _,
      onlyRegsChange_writeReg s d _⟩
  case first => exact exec_moveMemToReg_of_memRead16_error (memRead16_of_first_unbacked ha) d
  case second => exact exec_moveMemToReg_of_memRead16_error (memRead16_of_second_unbacked ha hb) d

end Sys2Proof.Machine
end

section
/-! PROOFS. The conditional branch, JmpNotEq of format FLL (spec/43_branch.md R130). -/

namespace Sys2Proof

/-- The decoder reads the opcode byte 0x15 and then two word fields (spec/30_encoding.md R71). -/
theorem decode_jmpNotEq (bs : List Byte) :
    decode (0x15#8 :: bs) = (do
      let (lit, bs) ← listFetch16 bs
      let (target, bs) ← listFetch16 bs
      .ok (.jmpNotEq lit target, bs)) :=
  decode_cons_of_some (v := .jmpNotEq) bs rfl

end Sys2Proof

namespace Sys2Proof.Machine

open Sys2Proof.Claims

theorem eq16_iff {a b : Word} : eq16 a b = true ↔ a = b := beq_iff_eq

theorem ipAfter_jmpNotEq_of_eq {lit : Word} {s : State} (h : lit = s.readReg .acc)
    (target : Word) : ipAfter (.jmpNotEq lit target) s = s.readReg .ip := if_pos h

theorem ipAfter_jmpNotEq_of_ne {lit : Word} {s : State} (h : lit ≠ s.readReg .acc)
    (target : Word) : ipAfter (.jmpNotEq lit target) s = target := if_neg h

/-- Taken or not, JmpNotEq is one write of IP: a branch not taken leaves the value IP had. -/
theorem exec_jmpNotEq (lit target : Word) (s : State) :
    exec (.jmpNotEq lit target) s =
      .next (s.writeReg .ip (ipAfter (.jmpNotEq lit target) s)) := by
  by_cases heq : lit = s.readReg .acc
  · rw [ipAfter_jmpNotEq_of_eq heq, State.writeReg_readReg_self]
    simp only [exec, execJmpNotEq, if_pos (eq16_iff.mpr heq)]
  · rw [ipAfter_jmpNotEq_of_ne heq]
    simp only [exec, execJmpNotEq, if_neg (mt eq16_iff.mp heq)]

/-- A running machine whose IP has no memory faults there, at the opcode fetch
(spec/10_state.md R30). -/
theorem step_of_unbacked_ip {s : State} (hrun : s.status = .running)
    (hip : s.backed (s.readReg .ip) = false) : step s = .fault (.boundsFault (s.readReg .ip)) :=
  step_of_fetchInstr_error hrun (bind_eq_error.mpr (.inl (fetch8_of_unbacked hip)))

/-- A jump to an address without memory faults at the next step, with that address. -/
theorem step_writeReg_ip_of_unbacked {s : State} {target : Word} (hrun : s.status = .running)
    (htarget : s.backed target = false) :
    step (s.writeReg .ip target) = .fault (.boundsFault target) := by
  have hip := State.readReg_writeReg_same s .ip target
  have hfault := step_of_unbacked_ip (s := s.writeReg .ip target) hrun (by rwa [hip])
  rwa [hip] at hfault

/-- The encoding part of R130: which bytes run a JmpNotEq, and how each of its fields faults. -/
theorem step_of_jmpNotEq (s : State) (h l h' l' : Byte) :
    RunsAs s [0x15#8, h, l, h', l'] (.jmpNotEq (wordOfBytes h l) (wordOfBytes h' l')) ∧
      BoundsFaultAfter s [0x15#8] ∧ BoundsFaultAfter s [0x15#8, h] ∧
      BoundsFaultAfter s [0x15#8, h, l] ∧ BoundsFaultAfter s [0x15#8, h, l, h'] :=
  ⟨runsAs_of_decode (decode_jmpNotEq [h, l, h', l']) s,
    boundsFaultAfter_of_decode (decode_jmpNotEq []) s,
    boundsFaultAfter_of_decode (decode_jmpNotEq [h]) s,
    boundsFaultAfter_of_decode (decode_jmpNotEq [h, l]) s,
    boundsFaultAfter_of_decode (decode_jmpNotEq [h, l, h']) s⟩

/-- Settles O6: the effect is one write of IP, so the frame is a register write's; a target without
memory is found by the next opcode fetch; the encoding is format FLL's. -/
theorem jmpNotEqBranchesOnAcc : Obligations.JmpNotEqBranchesOnAcc := by
  unfold Obligations.JmpNotEqBranchesOnAcc
  refine ⟨fun lit target s => ?effect, step_of_jmpNotEq⟩
  case effect =>
    have hip := State.readReg_writeReg_same s .ip (ipAfter (.jmpNotEq lit target) s)
    refine ⟨_, exec_jmpNotEq lit target s, fun hne => ?taken, fun heq => ?fallsThrough,
      sameRegsExcept_writeReg s .ip _, onlyRegsChange_writeReg s .ip _,
      fun hne hrun htarget => ?unbackedTarget⟩
    case taken => exact hip.trans (ipAfter_jmpNotEq_of_ne hne target)
    case fallsThrough => exact hip.trans (ipAfter_jmpNotEq_of_eq heq target)
    case unbackedTarget =>
      rw [ipAfter_jmpNotEq_of_ne hne]
      exact step_writeReg_ip_of_unbacked hrun htarget

end Sys2Proof.Machine
end

section
/-! PROOFS. InvalidInstruction (spec/60_exceptions.md R201): no operand fetch and no handler raises
it, so that a step which does has fetched a byte that is no opcode. -/

namespace Sys2Proof

/-- The decoder's default arm takes exactly the bytes that are the opcode byte of no variant
(spec/30_encoding.md R75). -/
theorem opcodeOfByte_eq_none_iff_forall_ne {b : Byte} :
    opcodeOfByte b = none ↔ ∀ v, opcodeByte v ≠ b := by
  rw [Option.eq_none_iff_forall_ne_some]
  exact forall_congr' fun v => not_congr (opcodeOfByte_eq_some.trans eq_comm)

end Sys2Proof

namespace Sys2Proof.Machine

/-! ## The handlers -/

/-- A last part that always answers leaves the faults of a sequence to the parts before it. -/
theorem bind_ok_eq_error {α β : Type} {e : Except Fault α} {g : α → β} {f : Fault} :
    (e >>= fun a => .ok (g a)) = .error f ↔ e = .error f := by
  simp [bind_eq_error]

theorem saveState_fault {s : State} {f : Fault} (h : saveState s = .error f) :
    ∃ a, f = .boundsFault a := by
  obtain ⟨_, -, -, -, hf⟩ := saveState_eq_error.mp h
  exact ⟨_, hf⟩

theorem restoreState_fault {s : State} {f : Fault} (h : restoreState s = .error f) :
    ∃ a, f = .boundsFault a := by
  obtain ⟨_, -, -, -, hf⟩ := restoreState_eq_error.mp h
  exact ⟨_, hf⟩

/-- A handler faults only where a memory access of it does, that is with BoundsFault. -/
theorem exec_fault {i : Instr} {s : State} {f : Fault} (h : exec i s = .fault f) :
    ∃ a, f = .boundsFault a := by
  cases i with
  | moveLitToReg | moveRegToReg | addRegReg | jmpNotEq | hlt => exact nomatch h
  | moveRegToMem => exact ⟨_, (memWrite16_eq_error.mp (outcome_eq_fault.mp h)).2⟩
  | moveMemToReg =>
    exact ⟨_, (memRead16_eq_error.mp (bind_ok_eq_error.mp (outcome_eq_fault.mp h))).2⟩
  | pushLit | pushReg => exact ⟨_, (push_eq_error.mp (outcome_eq_fault.mp h)).2⟩
  | pop => exact ⟨_, (pop_eq_error.mp (bind_ok_eq_error.mp (outcome_eq_fault.mp h))).2⟩
  | callLit | callReg => exact saveState_fault (bind_ok_eq_error.mp (outcome_eq_fault.mp h))
  | ret => exact restoreState_fault (outcome_eq_fault.mp h)

/-! ## The operand fetches -/

/-- The operation does not end in InvalidInstruction. -/
def NoInvalidInstruction {α : Type} (e : Except Fault α) : Prop :=
  ∀ op, e ≠ .error (.invalidInstruction op)

theorem NoInvalidInstruction.ok {α : Type} (x : α) : NoInvalidInstruction (.ok x) :=
  nofun

theorem NoInvalidInstruction.bind {α β : Type} {e : Except Fault α} {g : α → Except Fault β}
    (he : NoInvalidInstruction e) (hg : ∀ x, NoInvalidInstruction (g x)) :
    NoInvalidInstruction (e >>= g) := by
  intro op h
  obtain hfirst | ⟨x, -, hsecond⟩ := bind_eq_error.mp h
  · exact he op hfirst
  · exact hg x op hsecond

theorem noInvalidInstruction_fetch8 (s : State) : NoInvalidInstruction (fetch8 s) :=
  fun _ h => nomatch (fetch8_eq_error.mp h).2

theorem noInvalidInstruction_fetch16 (s : State) : NoInvalidInstruction (fetch16 s) :=
  fun _ h => nomatch (fetch16_eq_error.mp h).2

theorem noInvalidInstruction_fetchReg (s : State) :
    NoInvalidInstruction (fetchReg machineSource s) := by
  refine (noInvalidInstruction_fetch8 s).bind fun ⟨b, t⟩ => ?_
  cases hr : regOfId b with
  | none => intro op; simp [hr, machineSource]
  | some r => simpa only [hr] using NoInvalidInstruction.ok (r, t)

theorem noInvalidInstruction_fetchOperands (v : Opcode) (s : State) :
    NoInvalidInstruction (fetchOperands machineSource v s) := by
  have word := noInvalidInstruction_fetch16
  have reg := noInvalidInstruction_fetchReg
  cases v with
  | moveLitToReg | moveMemToReg => exact (word s).bind fun p => (reg p.2).bind fun _ => .ok _
  | moveRegToReg | addRegReg => exact (reg s).bind fun p => (reg p.2).bind fun _ => .ok _
  | moveRegToMem => exact (reg s).bind fun p => (word p.2).bind fun _ => .ok _
  | jmpNotEq => exact (word s).bind fun p => (word p.2).bind fun _ => .ok _
  | pushLit | callLit => exact (word s).bind fun _ => .ok _
  | pushReg | pop | callReg => exact (reg s).bind fun _ => .ok _
  | ret | hlt => exact .ok _

/-! ## The opcode fetch and the step -/

theorem fetchInstr_of_no_opcode {s t : State} {b : Byte} (h : fetch8 s = .ok (b, t))
    (hb : opcodeOfByte b = none) : fetchInstr s = .error (.invalidInstruction b) :=
  bind_eq_error.mpr (.inr ⟨(b, t), h, by simp only [hb]; rfl⟩)

/-- The fetch of an instruction ends in InvalidInstruction at its opcode byte or not at all. -/
theorem fetchInstr_eq_invalidInstruction_iff {s : State} {op : Byte} :
    fetchInstr s = .error (.invalidInstruction op) ↔
      s.backed (s.readReg .ip) = true ∧ s.byteAt (s.readReg .ip) = op ∧
        opcodeOfByte op = none := by
  constructor
  · intro h
    obtain hfetch | ⟨⟨b, t⟩, hfetch, hrest⟩ := bind_eq_error.mp h
    · exact absurd hfetch (noInvalidInstruction_fetch8 s op)
    · obtain ⟨hip, hbyte, -⟩ := fetch8_eq_ok.mp hfetch
      cases hv : opcodeOfByte b with
      | none =>
        obtain rfl : b = op := by simpa [hv, machineSource] using hrest
        exact ⟨hip, hbyte, hv⟩
      | some v =>
        simp only [hv] at hrest
        exact absurd hrest (noInvalidInstruction_fetchOperands v t op)
  · rintro ⟨hip, rfl, hnone⟩
    exact fetchInstr_of_no_opcode (fetch8_of_backed hip) hnone

/-- A step ends in InvalidInstruction when its fetch does: no handler raises that fault. -/
theorem step_eq_invalidInstruction_iff {s : State} {op : Byte} (hrun : s.status = .running) :
    step s = .fault (.invalidInstruction op) ↔
      fetchInstr s = .error (.invalidInstruction op) := by
  refine ⟨fun h => ?_, step_of_fetchInstr_error hrun⟩
  cases hf : fetchInstr s with
  | error f =>
    rw [step_of_fetchInstr_error hrun hf] at h
    rw [Host.Outcome.fault.inj h]
  | ok p =>
    rw [step_of_fetchInstr_ok hrun hf] at h
    obtain ⟨a, ha⟩ := exec_fault h
    contradiction

/-- Settles O22: from the step to its fetch, from the fetch to its opcode byte, and from the
decoder's default arm to the table's opcode bytes. -/
theorem stepRejectsExactlyIllegalOpcodes : Obligations.StepRejectsExactlyIllegalOpcodes := by
  unfold Obligations.StepRejectsExactlyIllegalOpcodes
  refine fun s hrun => ⟨fun op => ?illegal, step_of_unbacked_ip hrun⟩
  case illegal =>
    rw [step_eq_invalidInstruction_iff hrun, fetchInstr_eq_invalidInstruction_iff,
      opcodeOfByte_eq_none_iff_forall_ne]

end Sys2Proof.Machine
end

section
/-! PROOFS. On a list of bytes the decoder and the encoder are inverse to each other
(spec/30_encoding.md R80), and what follows: which lists decode (R72, R76, R77), and that the first
byte fixes the length. -/

namespace Sys2Proof

/-! ## The operand fields -/

/-- The read answers `x` exactly on the bytes `enc x`, whatever follows them. -/
def ReadsExactly {α : Type} (read : List Byte → Except DecodeError (α × List Byte))
    (enc : α → List Byte) : Prop :=
  ∀ bs x rest, read bs = .ok (x, rest) ↔ bs = enc x ++ rest

theorem readsExactly_fetch16 : ReadsExactly listFetch16 encodeWord := by
  intro bs w rest
  constructor
  · intro h
    obtain _ | ⟨hi, _ | ⟨lo, bs⟩⟩ := bs
    · exact nomatch h
    · exact nomatch h
    · obtain ⟨rfl, rfl⟩ := Prod.mk.inj (Except.ok.inj h)
      simp [encodeWord]
  · rintro rfl
    simp [encodeWord, listFetch16]

theorem readsExactly_fetchReg : ReadsExactly (fetchReg listSource) (fun r => [regId r]) := by
  intro bs r rest
  constructor
  · intro h
    cases bs with
    | nil => exact nomatch h
    | cons b bs =>
      cases hb : legalRegisterId b with
      | false =>
        rw [listFetchReg_illegal hb] at h
        exact nomatch h
      | true =>
        obtain ⟨r', rfl⟩ := (exists_regId_eq_iff b).mpr hb
        rw [listFetchReg_regId] at h
        obtain ⟨rfl, rfl⟩ := Prod.mk.inj (Except.ok.inj h)
        rfl
  · rintro rfl
    exact listFetchReg_regId r rest

section
variable {α β γ : Type} {f : List Byte → Except DecodeError (α × List Byte)}
  {g : List Byte → Except DecodeError (β × List Byte)} {enc : α → List Byte}
  {enc' : β → List Byte} {bs rest : List Byte} {z : γ}

theorem ReadsExactly.single (hf : ReadsExactly f enc) {mk : α → γ} :
    (f bs >>= fun p => .ok (mk p.1, p.2)) = .ok (z, rest) ↔
      ∃ x, z = mk x ∧ bs = enc x ++ rest := by
  constructor
  · intro h
    cases hx : f bs with
    | error e => rw [hx] at h; exact nomatch h
    | ok p =>
      rw [hx] at h
      obtain ⟨rfl, rfl⟩ := Prod.mk.inj (Except.ok.inj h)
      exact ⟨p.1, rfl, (hf _ _ _).mp hx⟩
  · rintro ⟨x, rfl, hbs⟩
    rw [(hf _ _ _).mpr hbs]
    rfl

theorem ReadsExactly.pair (hf : ReadsExactly f enc) (hg : ReadsExactly g enc')
    {mk : α → β → γ} :
    (f bs >>= fun p => g p.2 >>= fun q => .ok (mk p.1 q.1, q.2)) = .ok (z, rest) ↔
      ∃ x y, z = mk x y ∧ bs = enc x ++ (enc' y ++ rest) := by
  constructor
  · intro h
    cases hx : f bs with
    | error e => rw [hx] at h; exact nomatch h
    | ok p =>
      rw [hx] at h
      obtain ⟨y, hz, hy⟩ := hg.single.mp h
      exact ⟨p.1, y, hz, hy ▸ (hf _ _ _).mp hx⟩
  · rintro ⟨x, y, rfl, hbs⟩
    rw [(hf _ _ _).mpr hbs]
    exact hg.single.mpr ⟨y, rfl, rfl⟩

end

/-! ## The whole instruction -/

/-- The bytes of an instruction after its opcode byte. -/
def operandBytes (i : Instr) : List Byte := (encode i).tail

theorem encode_eq_cons (i : Instr) : encode i = opcodeByte i.opcode :: operandBytes i := by
  cases i <;> rfl

/-- Whatever the operand fetches of a variant answer is of that variant, and they used its operand
bytes. -/
theorem of_listFetchOperands_ok {v : Opcode} {bs rest : List Byte} {i : Instr}
    (h : fetchOperands listSource v bs = .ok (i, rest)) :
    i.opcode = v ∧ bs = operandBytes i ++ rest := by
  have word := readsExactly_fetch16
  have reg := readsExactly_fetchReg
  cases v with
  | moveLitToReg | moveMemToReg =>
    obtain ⟨_, _, rfl, rfl⟩ := (word.pair reg).mp h
    exact ⟨rfl, rfl⟩
  | moveRegToReg | addRegReg =>
    obtain ⟨_, _, rfl, rfl⟩ := (reg.pair reg).mp h
    exact ⟨rfl, rfl⟩
  | moveRegToMem =>
    obtain ⟨_, _, rfl, rfl⟩ := (reg.pair word).mp h
    exact ⟨rfl, rfl⟩
  | jmpNotEq =>
    obtain ⟨_, _, rfl, rfl⟩ := (word.pair word).mp h
    exact ⟨rfl, rfl⟩
  | pushLit | callLit =>
    obtain ⟨_, rfl, rfl⟩ := word.single.mp h
    exact ⟨rfl, rfl⟩
  | pushReg | pop | callReg =>
    obtain ⟨_, rfl, rfl⟩ := reg.single.mp h
    exact ⟨rfl, rfl⟩
  | ret | hlt =>
    obtain ⟨rfl, rfl⟩ := Prod.mk.inj (Except.ok.inj h)
    exact ⟨rfl, rfl⟩

/-- The operand fetches of an instruction's variant read the instruction off its operand bytes. -/
theorem listFetchOperands_operandBytes (i : Instr) (rest : List Byte) :
    fetchOperands listSource i.opcode (operandBytes i ++ rest) = .ok (i, rest) := by
  have word := readsExactly_fetch16
  have reg := readsExactly_fetchReg
  cases i with
  | moveLitToReg x y | moveMemToReg x y => exact (word.pair reg).mpr ⟨x, y, rfl, rfl⟩
  | moveRegToReg x y | addRegReg x y => exact (reg.pair reg).mpr ⟨x, y, rfl, rfl⟩
  | moveRegToMem x y => exact (reg.pair word).mpr ⟨x, y, rfl, rfl⟩
  | jmpNotEq x y => exact (word.pair word).mpr ⟨x, y, rfl, rfl⟩
  | pushLit x | callLit x => exact word.single.mpr ⟨x, rfl, rfl⟩
  | pushReg x | pop x | callReg x => exact reg.single.mpr ⟨x, rfl, rfl⟩
  | ret | hlt => rfl

/-- The bijection of spec/30_encoding.md R80: the bytes that decode to an instruction are its
encoding. -/
theorem readsExactly_decode : ReadsExactly decode encode := by
  intro bs i rest
  rw [encode_eq_cons, List.cons_append]
  constructor
  · intro h
    cases bs with
    | nil => exact nomatch h
    | cons op bs =>
      cases hv : opcodeOfByte op with
      | none =>
        rw [decode_cons_of_none bs hv] at h
        exact nomatch h
      | some v =>
        rw [decode_cons_of_some bs hv] at h
        obtain ⟨hopcode, hbs⟩ := of_listFetchOperands_ok h
        rw [opcodeOfByte_eq_some.mp hv, hopcode, hbs]
  · rintro rfl
    rw [decode_cons_of_some _ (opcodeOfByte_opcodeByte i.opcode)]
    exact listFetchOperands_operandBytes i rest

theorem decode_encode (i : Instr) (rest : List Byte) : decode (encode i ++ rest) = .ok (i, rest) :=
  (readsExactly_decode _ _ _).mpr rfl

theorem eq_encode_of_decode {bs rest : List Byte} {i : Instr} (h : decode bs = .ok (i, rest)) :
    bs = encode i ++ rest :=
  (readsExactly_decode _ _ _).mp h

/-- Settles O15: one half of the bijection. -/
theorem decodeEncodeRoundTrip : Obligations.DecodeEncodeRoundTrip :=
  decode_encode

/-- Settles O16: the other half of the bijection. -/
theorem encodeDecodeRoundTrip : Obligations.EncodeDecodeRoundTrip :=
  fun _ _ _ => eq_encode_of_decode

/-- Settles O14, each row by evaluating the decoder. -/
theorem writtenOutWordsDecode : Obligations.WrittenOutWordsDecode := by
  unfold Obligations.WrittenOutWordsDecode
  exact ⟨rfl, rfl, rfl, rfl, rfl, rfl, rfl, rfl, rfl, rfl, rfl, rfl, rfl⟩

/-! ## The tables of legal bytes -/

/-- The encoder writes legal bytes, as many as the table of lengths says. -/
theorem encodingWellFormed (i : Instr) : Laws.EncodingWellFormed.Statement i :=
  match i with
  | .moveLitToReg lit dest => Laws.EncodingWellFormed.moveLitToReg lit dest
  | .moveRegToReg src dest => Laws.EncodingWellFormed.moveRegToReg src dest
  | .moveRegToMem src addr => Laws.EncodingWellFormed.moveRegToMem src addr
  | .moveMemToReg addr dest => Laws.EncodingWellFormed.moveMemToReg addr dest
  | .addRegReg reg1 reg2 => Laws.EncodingWellFormed.addRegReg reg1 reg2
  | .jmpNotEq lit target => Laws.EncodingWellFormed.jmpNotEq lit target
  | .pushLit lit => Laws.EncodingWellFormed.pushLit lit
  | .pushReg reg => Laws.EncodingWellFormed.pushReg reg
  | .pop reg => Laws.EncodingWellFormed.pop reg
  | .callLit target => Laws.EncodingWellFormed.callLit target
  | .callReg reg => Laws.EncodingWellFormed.callReg reg
  | .ret => Laws.EncodingWellFormed.ret
  | .hlt => Laws.EncodingWellFormed.hlt

theorem length_encode (i : Instr) : (encode i).length = instrLength i :=
  (encodingWellFormed i).2

/-- The byte positions of a variant's register-id fields (spec/30_encoding.md R71). -/
def regFields : Opcode → List Nat
  | .moveLitToReg | .moveMemToReg => [3]
  | .moveRegToReg | .addRegReg => [1, 2]
  | .moveRegToMem | .pushReg | .pop | .callReg => [1]
  | .jmpNotEq | .pushLit | .callLit | .ret | .hlt => []

/-- The row of the table of shapes that an opcode byte selects. -/
theorem encodingShape_opcodeByte (v : Opcode) :
    encodingShape (opcodeByte v) = some (opcodeLength v, regFields v) := by
  cases v <;> rfl

/-- Only opcode bytes have a row in the table of shapes. -/
theorem encodingShape_eq_none {op : Byte} (h : opcodeOfByte op = none) :
    encodingShape op = none := by
  unfold opcodeOfByte at h
  unfold encodingShape
  split at h <;> simp_all

/-- Well-formed bytes begin with an opcode byte. -/
theorem exists_opcodeByte_of_wellFormed {op : Byte} {bs : List Byte}
    (h : wellFormedEncoding (op :: bs) = true) : ∃ v, op = opcodeByte v := by
  cases hv : opcodeOfByte op with
  | some v => exact ⟨v, opcodeOfByte_eq_some.mp hv⟩
  | none => simp [wellFormedEncoding, encodingShape_eq_none hv] at h

theorem wellFormedEncoding_opcodeByte_iff {v : Opcode} {bs : List Byte} :
    wellFormedEncoding (opcodeByte v :: bs) = true ↔
      bs.length + 1 = opcodeLength v ∧
        ∀ k ∈ regFields v, legalRegisterId ((opcodeByte v :: bs).getD k 0xFF#8) = true := by
  simp [wellFormedEncoding, encodingShape_opcodeByte]

/-- A word field holds any two bytes. -/
theorem encodeWord_wordOfBytes (hi lo : Byte) : encodeWord (wordOfBytes hi lo) = [hi, lo] := by
  simp [encodeWord]

/-- As many bytes as the variant needs, with legal ids in its register fields, are its operand
fields. -/
theorem exists_fetchOperands_of_wellFormed {v : Opcode} {bs : List Byte}
    (h : wellFormedEncoding (opcodeByte v :: bs) = true) :
    ∃ i, fetchOperands listSource v bs = .ok (i, []) := by
  obtain ⟨hlen, hregs⟩ := wellFormedEncoding_opcodeByte_iff.mp h
  have hreg : ∀ k ∈ regFields v, ∃ r, regId r = (opcodeByte v :: bs).getD k 0xFF#8 :=
    fun k hk => (exists_regId_eq_iff _).mpr (hregs k hk)
  have word := readsExactly_fetch16
  have reg := readsExactly_fetchReg
  cases v with
  | moveLitToReg | moveMemToReg =>
    obtain ⟨hi, lo, b, rfl⟩ := List.length_eq_three.mp (Nat.succ.inj hlen)
    obtain ⟨r, rfl⟩ := hreg 3 (.head _)
    exact ⟨_, reg.single.mpr ⟨r, rfl, rfl⟩⟩
  | moveRegToReg | addRegReg =>
    obtain ⟨b, b', rfl⟩ := List.length_eq_two.mp (Nat.succ.inj hlen)
    obtain ⟨r, rfl⟩ := hreg 1 (.head _)
    obtain ⟨r', rfl⟩ := hreg 2 (.tail _ (.head _))
    exact ⟨_, (reg.pair reg).mpr ⟨r, r', rfl, rfl⟩⟩
  | moveRegToMem =>
    obtain ⟨b, hi, lo, rfl⟩ := List.length_eq_three.mp (Nat.succ.inj hlen)
    obtain ⟨r, rfl⟩ := hreg 1 (.head _)
    exact ⟨_, (reg.pair word).mpr ⟨r, wordOfBytes hi lo, rfl, by rw [encodeWord_wordOfBytes]; rfl⟩⟩
  | jmpNotEq =>
    obtain ⟨hi, lo, hi', lo', rfl⟩ := List.length_eq_four.mp (Nat.succ.inj hlen)
    exact ⟨_, rfl⟩
  | pushLit | callLit =>
    obtain ⟨hi, lo, rfl⟩ := List.length_eq_two.mp (Nat.succ.inj hlen)
    exact ⟨_, rfl⟩
  | pushReg | pop | callReg =>
    obtain ⟨b, rfl⟩ := List.length_eq_one_iff.mp (Nat.succ.inj hlen)
    obtain ⟨r, rfl⟩ := hreg 1 (.head _)
    exact ⟨_, reg.single.mpr ⟨r, rfl, rfl⟩⟩
  | ret | hlt =>
    obtain rfl := List.length_eq_zero_iff.mp (Nat.succ.inj hlen)
    exact ⟨_, rfl⟩

/-- Settles O17: what decodes is an encoding and so well formed; well-formed bytes begin with an
opcode byte, and its operand fetches use them up. -/
theorem decoderAcceptsExactlyLegalBytes : Obligations.DecoderAcceptsExactlyLegalBytes := by
  unfold Obligations.DecoderAcceptsExactlyLegalBytes
  intro bs
  constructor
  · rintro ⟨i, h⟩
    rw [eq_encode_of_decode h, List.append_nil]
    exact (encodingWellFormed i).1
  · intro h
    cases bs with
    | nil => exact nomatch h
    | cons op bs =>
      obtain ⟨v, rfl⟩ := exists_opcodeByte_of_wellFormed h
      obtain ⟨i, hi⟩ := exists_fetchOperands_of_wellFormed h
      exact ⟨i, (decode_cons_of_some bs (opcodeOfByte_opcodeByte v)).trans hi⟩

/-- Settles O19: the bytes that decode are an encoding, which has the length and the row of its
opcode. -/
theorem opcodeByteFixesLength : Obligations.OpcodeByteFixesLength := by
  unfold Obligations.OpcodeByteFixesLength
  intro op tail rest i h
  have hbs := eq_encode_of_decode h
  have hop : op = opcodeByte i.opcode := by
    rw [encode_eq_cons] at hbs
    exact (List.cons.inj hbs).1
  refine ⟨hop, ?_, regFields i.opcode, hop ▸ encodingShape_opcodeByte i.opcode⟩
  rw [hbs, List.length_append, length_encode, instrLength]

end Sys2Proof
end

section
/-! PROOFS. What the handlers do, said once for all instructions: the words of memory an instruction
accesses decide whether it completes or which fault it ends in (spec/60_exceptions.md R203), and it
completes in one state. The later proofs cite this and open no handler. -/

namespace Sys2Proof.Machine

open Sys2Proof.Claims

/-- The addresses of the words that the handler of an instruction accesses, in its order. -/
def State.accesses (s : State) : Instr → List Word
  | .moveRegToMem _ a => [a]
  | .moveMemToReg a _ => [a]
  | .pushLit _ => [s.readReg .sp]
  | .pushReg _ => [s.readReg .sp]
  | .pop _ => [s.readReg .sp + 2#16]
  | .callLit _ => (List.range 10).map fun k => wordsBelow (s.readReg .sp) k
  | .callReg _ => (List.range 10).map fun k => wordsBelow (s.readReg .sp) k
  | .ret => (List.range (11 + s.argCount)).map fun k => wordsAbove (s.readReg .fp) (k + 1)
  | .moveLitToReg _ _ | .moveRegToReg _ _ | .addRegReg _ _ | .jmpNotEq _ _ | .hlt => []

/-- The state that the handler of an instruction leaves when none of its accesses faults. -/
def State.after (s : State) : Instr → State
  | .moveLitToReg lit d => s.writeReg d lit
  | .moveRegToReg r d => s.writeReg d (s.readReg r)
  | .moveRegToMem r a => s.putWord a (s.readReg r)
  | .moveMemToReg a d => s.writeReg d (s.wordAt a)
  | .addRegReg p q => s.writeReg .acc (add16 (s.readReg p) (s.readReg q))
  | .jmpNotEq lit target => s.writeReg .ip (ipAfter (.jmpNotEq lit target) s)
  | .pushLit lit => s.pushed lit
  | .pushReg r => s.pushed (s.readReg r)
  | .pop r => s.popped.writeReg r (s.wordAt (s.readReg .sp + 2#16))
  | .callLit target => s.saved.writeReg .ip target
  | .callReg r => s.saved.writeReg .ip (s.readReg r)
  | .ret => s.restored
  | .hlt => s.withStatus .halted

/-! ## Completion -/

/-- A last part that always answers makes the answer of a sequence from that of the parts before
it. -/
theorem bind_ok_eq_ok {α β : Type} {e : Except Fault α} {g : α → β} {b : β} :
    (e >>= fun a => .ok (g a)) = .ok b ↔ ∃ a, e = .ok a ∧ b = g a := by
  rw [bind_eq_ok]
  simp [eq_comm (a := b)]

/-- An instruction completes exactly when memory backs every word it accesses. -/
theorem exec_eq_next_iff {i : Instr} {s t : State} :
    exec i s = .next t ↔ (∀ a ∈ s.accesses i, s.backedWord a = true) ∧ t = s.after i := by
  cases i with
  | moveLitToReg | moveRegToReg | addRegReg | hlt =>
    simp [exec, execMoveLitToReg, execMoveRegToReg, execAddRegReg, execHlt, State.accesses,
      State.after, eq_comm (a := t)]
  | jmpNotEq => simp [exec_jmpNotEq, State.accesses, State.after, eq_comm (a := t)]
  | moveRegToMem =>
    simp [exec, execMoveRegToMem, memWrite16_eq_ok, State.accesses, State.after]
  | moveMemToReg =>
    simp [exec, execMoveMemToReg, bind_ok_eq_ok, memRead16_eq_ok, State.accesses, State.after]
  | pushLit | pushReg =>
    simp [exec, execPushLit, execPushReg, push_eq_ok, State.accesses, State.after]
  | pop =>
    simp [exec, execPop, bind_ok_eq_ok, pop_eq_ok, State.accesses, State.after]
  | callLit | callReg =>
    simp [exec, execCallLit, execCallReg, bind_ok_eq_ok, saveState_eq_ok, State.accesses,
      State.after]
  | ret => simp [exec, execRet, restoreState_eq_ok, State.accesses, State.after]

theorem exec_of_backed {i : Instr} {s : State} (h : ∀ a ∈ s.accesses i, s.backedWord a = true) :
    exec i s = .next (s.after i) :=
  exec_eq_next_iff.mpr ⟨h, rfl⟩

/-- An instruction with one access completes when memory backs that word. -/
theorem exec_of_backed_single {i : Instr} {s : State} {a : Word} (hi : s.accesses i = [a])
    (ha : s.backedWord a = true) : exec i s = .next (s.after i) :=
  exec_of_backed (by simpa [hi] using ha)

/-! ## Faults -/

/-- The fault of an access to the listed words in turn: the first missing byte of the first of them
that memory does not back. -/
def State.accessFault (s : State) (as : List Word) : Option Fault :=
  (as.find? fun a => !s.backedWord a).map fun a => .boundsFault (s.wordFault a)

theorem State.accessFault_eq_some_iff {s : State} {as : List Word} {f : Fault} :
    s.accessFault as = some f ↔
      ∃ (k : Nat) (hk : k < as.length), (∀ j (hj : j < k), s.backedWord as[j] = true) ∧
        s.backedWord as[k] = false ∧ f = .boundsFault (s.wordFault as[k]) := by
  simp only [State.accessFault, Option.map_eq_some_iff, List.find?_eq_some_iff_getElem,
    Bool.not_eq_true', Bool.not_not]
  constructor
  · rintro ⟨_, ⟨hb, k, hk, rfl, hj⟩, rfl⟩
    exact ⟨k, hk, hj, hb, rfl⟩
  · rintro ⟨k, hk, hj, hb, rfl⟩
    exact ⟨as[k], ⟨hb, k, hk, rfl, hj⟩, rfl⟩

theorem State.accessFault_singleton {s : State} {a : Word} {f : Fault} :
    s.accessFault [a] = some f ↔ s.backedWord a = false ∧ f = .boundsFault (s.wordFault a) := by
  cases h : s.backedWord a <;> simp [State.accessFault, h, eq_comm]

theorem State.accessFault_map_range {s : State} {n : Nat} {g : Nat → Word} {f : Fault} :
    s.accessFault ((List.range n).map g) = some f ↔
      ∃ k < n, (∀ j < k, s.backedWord (g j) = true) ∧ s.backedWord (g k) = false ∧
        f = .boundsFault (s.wordFault (g k)) := by
  simp only [State.accessFault_eq_some_iff, List.length_map, List.length_range, List.getElem_map,
    List.getElem_range, exists_prop]

/-- An instruction faults exactly when memory does not back every word it accesses. -/
theorem exec_eq_fault_iff {i : Instr} {s : State} {f : Fault} :
    exec i s = .fault f ↔ s.accessFault (s.accesses i) = some f := by
  cases i with
  | moveLitToReg | moveRegToReg | addRegReg | hlt =>
    simp [exec, execMoveLitToReg, execMoveRegToReg, execAddRegReg, execHlt, State.accesses,
      State.accessFault]
  | jmpNotEq => simp [exec_jmpNotEq, State.accesses, State.accessFault]
  | moveRegToMem =>
    simp [exec, execMoveRegToMem, memWrite16_eq_error, State.accesses,
      State.accessFault_singleton]
  | moveMemToReg =>
    simp [exec, execMoveMemToReg, bind_ok_eq_error, memRead16_eq_error, State.accesses,
      State.accessFault_singleton]
  | pushLit | pushReg =>
    simp [exec, execPushLit, execPushReg, push_eq_error, State.accesses,
      State.accessFault_singleton]
  | pop =>
    simp [exec, execPop, bind_ok_eq_error, pop_eq_error, State.accesses,
      State.accessFault_singleton]
  | callLit | callReg =>
    simp [exec, execCallLit, execCallReg, bind_ok_eq_error, saveState_eq_error, State.accesses,
      State.accessFault_map_range]
  | ret =>
    simp [exec, execRet, restoreState_eq_error, State.accesses, State.accessFault_map_range]

theorem exec_ne_refused (i : Instr) (s : State) (r : Refusal) : exec i s ≠ .refused r := by
  cases i with
  | moveLitToReg | moveRegToReg | addRegReg | jmpNotEq | hlt => exact nofun
  | moveRegToMem | moveMemToReg | pushLit | pushReg | pop | callLit | callReg | ret =>
    exact outcome_ne_refused _ r

/-- When memory backs all accesses before the `k`-th, the fault, if any, is at the `k`-th. -/
theorem wordBoundsFault_exec {i : Instr} {s : State} {as : List Word} (hi : s.accesses i = as)
    {k : Nat} (hk : k < as.length) (hb : ∀ j (hj : j < k), s.backedWord as[j] = true) :
    WordBoundsFault s as[k] (exec i s) := by
  have hfault (h : s.backedWord as[k] = false) :
      exec i s = .fault (.boundsFault (s.wordFault as[k])) :=
    exec_eq_fault_iff.mpr (by rw [hi]; exact State.accessFault_eq_some_iff.mpr ⟨k, hk, hb, h, rfl⟩)
  constructor
  · intro h
    rw [hfault (by simp [State.backedWord, h]), State.wordFault, h]
    rfl
  · intro h h'
    rw [hfault (by simp [State.backedWord, h']), State.wordFault, h]
    rfl

theorem wordBoundsFault_exec_single {i : Instr} {s : State} {a : Word}
    (hi : s.accesses i = [a]) : WordBoundsFault s a (exec i s) :=
  wordBoundsFault_exec hi (k := 0) Nat.one_pos nofun

theorem wordBoundsFault_exec_range {i : Instr} {s : State} {n : Nat} {g : Nat → Word}
    (hi : s.accesses i = (List.range n).map g) {k : Nat} (hk : k < n)
    (hb : ∀ j < k, s.backedWord (g j) = true) : WordBoundsFault s (g k) (exec i s) := by
  have h := wordBoundsFault_exec hi (k := k) (by simpa using hk) (by simpa using hb)
  simpa using h

end Sys2Proof.Machine
end

section
/-! PROOFS. The instructions of formats FRR, FRL, FL, FR and F (spec/30_encoding.md R71): which
bytes run one, and how each of its fields faults. -/

namespace Sys2Proof

/-- The decoder reads the byte `op` as the opcode of an instruction with one word field. -/
def DecodesWord (op : Byte) (mk : Word → Instr) : Prop :=
  ∀ bs, decode (op :: bs) = (do
    let (w, bs) ← listFetch16 bs
    .ok (mk w, bs))

/-- The decoder reads the byte `op` as the opcode of an instruction with one register field. -/
def DecodesReg (op : Byte) (mk : Reg → Instr) : Prop :=
  ∀ bs, decode (op :: bs) = (do
    let (r, bs) ← fetchReg listSource bs
    .ok (mk r, bs))

/-- The decoder reads the byte `op` as the opcode of an instruction with two register fields. -/
def DecodesTwoRegs (op : Byte) (mk : Reg → Reg → Instr) : Prop :=
  ∀ bs, decode (op :: bs) = (do
    let (r, bs) ← fetchReg listSource bs
    let (d, bs) ← fetchReg listSource bs
    .ok (mk r d, bs))

theorem decodesWord_pushLit : DecodesWord 0x17#8 .pushLit :=
  fun bs => decode_cons_of_some (v := .pushLit) bs rfl

theorem decodesWord_callLit : DecodesWord 0x5E#8 .callLit :=
  fun bs => decode_cons_of_some (v := .callLit) bs rfl

theorem decodesReg_pushReg : DecodesReg 0x18#8 .pushReg :=
  fun bs => decode_cons_of_some (v := .pushReg) bs rfl

theorem decodesReg_pop : DecodesReg 0x19#8 .pop :=
  fun bs => decode_cons_of_some (v := .pop) bs rfl

theorem decodesReg_callReg : DecodesReg 0x5F#8 .callReg :=
  fun bs => decode_cons_of_some (v := .callReg) bs rfl

theorem decodesTwoRegs_moveRegToReg : DecodesTwoRegs 0x11#8 .moveRegToReg :=
  fun bs => decode_cons_of_some (v := .moveRegToReg) bs rfl

theorem decodesTwoRegs_addRegReg : DecodesTwoRegs 0x14#8 .addRegReg :=
  fun bs => decode_cons_of_some (v := .addRegReg) bs rfl

/-- The decoder reads the byte 0x12 and then a register and a word field. -/
theorem decode_moveRegToMem (bs : List Byte) :
    decode (0x12#8 :: bs) = (do
      let (r, bs) ← fetchReg listSource bs
      let (a, bs) ← listFetch16 bs
      .ok (.moveRegToMem r a, bs)) :=
  decode_cons_of_some (v := .moveRegToMem) bs rfl

end Sys2Proof

namespace Sys2Proof.Machine

open Sys2Proof.Claims

/-- The encoding part of a statement about an instruction of format FL. -/
theorem step_of_word {op : Byte} {mk : Word → Instr} (hop : DecodesWord op mk) (s : State)
    (h l : Byte) :
    RunsAs s [op, h, l] (mk (wordOfBytes h l)) ∧ BoundsFaultAfter s [op] ∧
      BoundsFaultAfter s [op, h] :=
  ⟨runsAs_of_decode (hop [h, l]) s, boundsFaultAfter_of_decode (hop []) s,
    boundsFaultAfter_of_decode (hop [h]) s⟩

/-- The encoding part of a statement about an instruction of format FR. -/
theorem step_of_reg {op : Byte} {mk : Reg → Instr} (hop : DecodesReg op mk) (s : State) (r : Reg) :
    RunsAs s [op, regId r] (mk r) ∧ BoundsFaultAfter s [op] ∧ InvalidRegisterAfter s [op] := by
  refine ⟨runsAs_of_decode ?whole s, boundsFaultAfter_of_decode (hop []) s,
    invalidRegisterAfter_of_decode (fun b hb => ?illegalId) s⟩
  case whole => rw [hop, listFetchReg_regId]; rfl
  case illegalId => rw [List.cons_append, hop, List.nil_append, listFetchReg_illegal hb]; rfl

/-- The encoding part of a statement about an instruction of format FRR. -/
theorem step_of_twoRegs {op : Byte} {mk : Reg → Reg → Instr} (hop : DecodesTwoRegs op mk)
    (s : State) (r d : Reg) :
    RunsAs s [op, regId r, regId d] (mk r d) ∧
      BoundsFaultAfter s [op] ∧ InvalidRegisterAfter s [op] ∧
      BoundsFaultAfter s [op, regId r] ∧ InvalidRegisterAfter s [op, regId r] := by
  have second (bs : List Byte) : decode (op :: regId r :: bs) = (do
      let (d, bs) ← fetchReg listSource bs
      .ok (mk r d, bs)) := by
    rw [hop, listFetchReg_regId]; rfl
  refine ⟨runsAs_of_decode ?whole s, boundsFaultAfter_of_decode (hop []) s,
    invalidRegisterAfter_of_decode (fun b hb => ?illegalFirst) s,
    boundsFaultAfter_of_decode (second []) s,
    invalidRegisterAfter_of_decode (fun b hb => ?illegalSecond) s⟩
  case whole => rw [second, listFetchReg_regId]; rfl
  case illegalFirst => rw [List.cons_append, hop, List.nil_append, listFetchReg_illegal hb]; rfl
  case illegalSecond =>
    rw [List.cons_append, List.cons_append, second, List.nil_append, listFetchReg_illegal hb]; rfl

/-- The encoding part of R112: which bytes run a MoveRegToMem, and how each of its fields faults. -/
theorem step_of_moveRegToMem (s : State) (r : Reg) (h l : Byte) :
    RunsAs s [0x12#8, regId r, h, l] (.moveRegToMem r (wordOfBytes h l)) ∧
      BoundsFaultAfter s [0x12#8] ∧ InvalidRegisterAfter s [0x12#8] ∧
      BoundsFaultAfter s [0x12#8, regId r] ∧ BoundsFaultAfter s [0x12#8, regId r, h] := by
  have second (bs : List Byte) : decode (0x12#8 :: regId r :: bs) = (do
      let (a, bs) ← listFetch16 bs
      .ok (.moveRegToMem r a, bs)) := by
    rw [decode_moveRegToMem, listFetchReg_regId]; rfl
  refine ⟨runsAs_of_decode (second [h, l]) s, boundsFaultAfter_of_decode (decode_moveRegToMem []) s,
    invalidRegisterAfter_of_decode (fun b hb => ?illegalId) s,
    boundsFaultAfter_of_decode (second []) s, boundsFaultAfter_of_decode (second [h]) s⟩
  case illegalId =>
    rw [List.cons_append, decode_moveRegToMem, List.nil_append, listFetchReg_illegal hb]; rfl

end Sys2Proof.Machine
end

section
/-! PROOFS. The remaining Move instructions, AddRegReg and Hlt (spec/41_data_movement.md,
spec/42_alu.md, spec/46_halt.md). -/

namespace Sys2Proof.Machine

open Sys2Proof.Claims

/-- The two bytes of a word written with `putWord` are stored, high byte first, and no other. -/
theorem storedWord_putWord (s : State) (a v : Word) : StoredWord s (s.putWord a v) a v := by
  refine ⟨?_, ?_, fun x h0 h1 => ?_⟩
  · rw [State.byteAt_putWord, if_neg (word_ne_succ a), if_pos rfl]
  · rw [State.byteAt_putWord, if_pos rfl]
  · rw [State.byteAt_putWord, if_neg h1, if_neg h0]

/-- Settles O2: the effect is one register write, the encoding is format FRR's. -/
theorem moveRegToRegCopies : Obligations.MoveRegToRegCopies := by
  unfold Obligations.MoveRegToRegCopies
  refine ⟨fun r d s => ?effect, step_of_twoRegs decodesTwoRegs_moveRegToReg⟩
  case effect =>
    exact ⟨s.writeReg d (s.readReg r), exec_of_backed nofun,
      State.readReg_writeReg_same s d _, sameRegsExcept_writeReg s d _,
      onlyRegsChange_writeReg s d _⟩

/-- Settles O5: the effect is one write of ACC, the encoding is format FRR's. -/
theorem addRegRegSumsIntoAcc : Obligations.AddRegRegSumsIntoAcc := by
  unfold Obligations.AddRegRegSumsIntoAcc
  refine ⟨fun p q s => ?effect, step_of_twoRegs decodesTwoRegs_addRegReg⟩
  case effect =>
    refine ⟨s.writeReg .acc (add16 (s.readReg p) (s.readReg q)), exec_of_backed nofun, ?_,
      sameRegsExcept_writeReg s .acc _, onlyRegsChange_writeReg s .acc _⟩
    rw [State.readReg_writeReg_same]
    exact BitVec.toNat_add _ _

/-- Settles O3: the effect is one word stored, the data faults are that one access's, the encoding
is format FRL's. -/
theorem moveRegToMemStoresWord : Obligations.MoveRegToMemStoresWord := by
  unfold Obligations.MoveRegToMemStoresWord
  refine ⟨fun r a s ha => ?effect, fun r a s => wordBoundsFault_exec_single rfl,
    step_of_moveRegToMem⟩
  case effect =>
    exact ⟨s.putWord a (s.readReg r), exec_of_backed_single rfl ha,
      storedWord_putWord s a _, fun _ _ => rfl, rfl, rfl, rfl⟩

/-- Settles O13: the effect is one write of the status. -/
theorem hltHaltsAndChangesNothingElse : Obligations.HltHaltsAndChangesNothingElse := by
  unfold Obligations.HltHaltsAndChangesNothingElse
  exact ⟨fun s => ⟨s.withStatus .halted, exec_of_backed nofun, rfl, fun _ _ => rfl, rfl, rfl, rfl⟩,
    runsAs_of_decode rfl⟩

end Sys2Proof.Machine
end

section
/-! PROOFS. The stack instructions (spec/44_stack.md R144 to R146). -/

namespace Sys2Proof.Machine

open Sys2Proof.Claims

theorem pushedWord_pushed (s : State) (v : Word) : PushedWord s (s.pushed v) v :=
  ⟨storedWord_putWord s (s.readReg .sp) v, State.pushed_sp s v, rfl,
    fun r hr => State.pushed_readReg s v r (by simpa using hr), rfl, rfl⟩

/-- Settles O7: the effect is one push, the data faults are that one access's, the encoding is
format FL's. -/
theorem pushLitPushesLiteral : Obligations.PushLitPushesLiteral := by
  unfold Obligations.PushLitPushesLiteral
  exact ⟨fun lit s hsp => ⟨_, exec_of_backed_single rfl hsp, pushedWord_pushed s lit⟩,
    fun lit s => wordBoundsFault_exec_single rfl, step_of_word decodesWord_pushLit⟩

/-- Settles O8: the effect is one push of the value read before it, the encoding is format FR's. -/
theorem pushRegPushesValue : Obligations.PushRegPushesValue := by
  unfold Obligations.PushRegPushesValue
  exact ⟨fun r s hsp => ⟨_, exec_of_backed_single rfl hsp, pushedWord_pushed s (s.readReg r)⟩,
    fun r s => wordBoundsFault_exec_single rfl, step_of_reg decodesReg_pushReg⟩

/-- Settles O9: the effect is one pop and then a register write, the encoding is format FR's. -/
theorem popLoadsTopOfStack : Obligations.PopLoadsTopOfStack := by
  unfold Obligations.PopLoadsTopOfStack
  refine ⟨fun r s hsp => ?effect, fun r s => wordBoundsFault_exec_single rfl,
    step_of_reg decodesReg_pop⟩
  case effect =>
    refine ⟨_, exec_of_backed_single rfl hsp, State.readReg_writeReg_same _ r _, fun hr => ?_, rfl,
      rfl, fun x hx => ?_, rfl, rfl⟩
    · rw [State.after, State.readReg_writeReg_ne _ _ _ _ hr.symm, State.popped_sp]
    · obtain ⟨hxr, hxsp⟩ : x ≠ r ∧ x ≠ .sp := by simpa using hx
      rw [State.after, State.readReg_writeReg_ne _ _ _ _ hxr, State.popped_readReg _ _ hxsp]

end Sys2Proof.Machine
end

section
/-! PROOFS. The calls and Ret (spec/45_call_return.md R168 to R170). -/

namespace Sys2Proof.Machine

open Sys2Proof.Claims

theorem framePlace_eq (s : State) (k : Nat) : framePlace s k = wordsBelow (s.readReg .sp) k := rfl

/-- The frame of a call as the statements describe it, in the state that state-save leaves. -/
theorem savedFrame_saved (s : State) (target : Word) :
    SavedFrame s (s.saved.writeReg .ip target) := by
  have frame (k : Nat) (hk : k < 10) :
      (s.saved.writeReg .ip target).wordAt (framePlace s k) = s.frameWords[k] :=
    s.saved_wordAt k hk
  refine ⟨frame 0 (by decide), frame 1 (by decide), frame 2 (by decide), frame 3 (by decide),
    frame 4 (by decide), frame 5 (by decide), frame 6 (by decide), frame 7 (by decide),
    frame 8 (by decide), frame 9 (by decide), s.saved_byteAt, ?_, ?_, rfl, fun r hr => ?_, ?_, ?_⟩
  · exact (State.readReg_writeReg_ne _ _ _ _ (by decide)).trans s.saved_sp
  · exact (State.readReg_writeReg_ne _ _ _ _ (by decide)).trans s.saved_fp
  · obtain ⟨hip, hsp, hfp⟩ : r ≠ .ip ∧ r ≠ .sp ∧ r ≠ .fp := by simpa using hr
    rw [State.readReg_writeReg_ne _ _ _ _ hip, State.saved_readReg _ _ hsp hfp]
  · exact s.saved_status
  · exact s.saved_memSize

/-- A call whose ten places have memory completes with the frame saved and IP at the target; one
whose frame does not fit faults at the first place that is missing. -/
theorem exec_call {i : Instr} {s : State} {target : Word}
    (hacc : s.accesses i = (List.range 10).map fun k => wordsBelow (s.readReg .sp) k)
    (hafter : s.after i = s.saved.writeReg .ip target) :
    ((∀ k < 10, s.backedWord (framePlace s k) = true) →
      ∃ t, exec i s = .next t ∧ t.readReg .ip = target ∧ SavedFrame s t) ∧
    FrameBoundsFault s (exec i s) := by
  refine ⟨fun hb => ⟨_, exec_of_backed ?_, ?_, ?_⟩,
    fun k hk hb => wordBoundsFault_exec_range hacc hk hb⟩
  · rw [hacc]
    simpa [← framePlace_eq] using hb
  · rw [hafter, State.readReg_writeReg_same]
  · rw [hafter]
    exact savedFrame_saved s target

/-- Settles O10: the effect and the faults are a call's, the encoding is format FL's. -/
theorem callLitSavesFrameAndJumps : Obligations.CallLitSavesFrameAndJumps := by
  unfold Obligations.CallLitSavesFrameAndJumps
  have call (target : Word) (s : State) := exec_call (i := .callLit target) (s := s) rfl rfl
  exact ⟨fun target s => (call target s).1, fun target s => (call target s).2,
    step_of_word decodesWord_callLit⟩

/-- Settles O11: the effect and the faults are a call's, the encoding is format FR's. -/
theorem callRegSavesFrameAndJumps : Obligations.CallRegSavesFrameAndJumps := by
  unfold Obligations.CallRegSavesFrameAndJumps
  have call (r : Reg) (s : State) := exec_call (i := .callReg r) (s := s) rfl rfl
  exact ⟨fun r s => (call r s).1, fun r s => (call r s).2, step_of_reg decodesReg_callReg⟩

/-- The counter the statements give a Ret is the one state-restore leaves. -/
theorem counterAfterRet_eq (s : State) : counterAfterRet s = s.restoredFsc := by
  change wordsBelow (wordsBelow (s.wordAt (popPlace s 0)) 10) s.argCount = _
  rw [wordsBelow_add]
  rfl

theorem restored_restored (s : State) : Restored s s.restored := by
  refine ⟨s.restored_ip, s.restored_general 7 (by decide), s.restored_general 6 (by decide),
    s.restored_general 5 (by decide), s.restored_general 4 (by decide),
    s.restored_general 3 (by decide), s.restored_general 2 (by decide),
    s.restored_general 1 (by decide), s.restored_general 0 (by decide), ?sp,
    (counterAfterRet_eq s).symm, ?fp, s.restored_acc, s.restored_mem, s.restored_status,
    s.restored_memSize⟩
  case sp =>
    rw [s.restored_sp, wordsAbove, Nat.mul_add]
    rfl
  case fp => rw [s.restored_fp, counterAfterRet_eq]

/-- Settles O12: the effect is state-restore's, the data faults are those of its pops. -/
theorem retRestoresFrame : Obligations.RetRestoresFrame := by
  unfold Obligations.RetRestoresFrame
  have hacc (s : State) : s.accesses .ret = (List.range (11 + argCount s)).map (popPlace s) := rfl
  refine ⟨fun s hb => ⟨s.restored, exec_of_backed ?_, restored_restored s⟩,
    fun s k hk hb => wordBoundsFault_exec_range (hacc s) hk hb, runsAs_of_decode rfl⟩
  simpa [hacc] using hb

end Sys2Proof.Machine
end

section
/-! PROOFS. The state an instruction leaves, field by field (spec/10_state.md R24, R38, R39;
spec/40_fetch_decode.md R99; spec/20_memory.md R57, R58). -/

namespace Sys2Proof.Machine

open Sys2Proof.Claims

section
variable (s : State) (i : Instr)

@[simp] theorem State.after_memSize : (s.after i).memSize = s.memSize := by
  cases i <;> simp [State.after]

/-- Only Hlt writes the status. -/
theorem State.after_status :
    (s.after i).status = if i = .hlt then .halted else s.status := by
  cases i <;> simp [State.after]

/-- IP is as the table of R99 lists it. -/
theorem State.after_ip : (s.after i).readReg .ip = ipAfter i s := by
  cases i with
  | moveLitToReg | moveRegToReg | moveMemToReg | pop =>
    simp [State.after, State.readReg_writeReg, ipAfter, eq_comm (a := Reg.ip)]
  | addRegReg | pushLit | pushReg => simp [State.after, ipAfter]
  | jmpNotEq | callLit | callReg => exact State.readReg_writeReg_same _ _ _
  | ret => exact s.restored_ip
  | moveRegToMem | hlt => rfl

/-- The implicit writers of R24 and the register-id destination are all the registers written. -/
theorem State.after_readReg {r : Reg} (hd : i.dest? ≠ some r) (hr : r ∉ implicitWrites i) :
    (s.after i).readReg r = s.readReg r := by
  have ne_dest {d : Reg} (h : i.dest? = some d) : r ≠ d := fun he => hd (he ▸ h)
  cases i with
  | moveLitToReg | moveRegToReg | moveMemToReg =>
    exact State.readReg_writeReg_ne _ _ _ _ (ne_dest rfl)
  | addRegReg | jmpNotEq =>
    exact State.readReg_writeReg_ne _ _ _ _ (by simpa [implicitWrites] using hr)
  | pushLit | pushReg => exact State.pushed_readReg _ _ _ (by simpa [implicitWrites] using hr)
  | pop =>
    exact (State.readReg_writeReg_ne _ _ _ _ (ne_dest rfl)).trans
      (State.popped_readReg _ _ (by simpa [implicitWrites] using hr))
  | callLit | callReg =>
    obtain ⟨hip, hsp, hfp⟩ : r ≠ .ip ∧ r ≠ .sp ∧ r ≠ .fp := by
      simpa [implicitWrites] using hr
    exact (State.readReg_writeReg_ne _ _ _ _ hip).trans (State.saved_readReg _ _ hsp hfp)
  | ret =>
    obtain rfl : r = .acc := by cases r <;> simp_all [implicitWrites]
    exact s.restored_acc
  | moveRegToMem | hlt => rfl

/-- The bytes that `storesTo` names are all the bytes written. -/
theorem State.after_byteAt {x : Word} (hx : ¬ storesTo i s x) :
    (s.after i).byteAt x = s.byteAt x := by
  have stored {a v : Word} (h : ¬ (x = a ∨ x = a + 1#16)) :
      (s.putWord a v).byteAt x = s.byteAt x :=
    (storedWord_putWord s a v).2.2 x (fun h' => h (.inl h')) fun h' => h (.inr h')
  cases i with
  | moveRegToMem | pushLit | pushReg => exact stored hx
  | callLit | callReg =>
    exact s.saved_byteAt x fun k hk =>
      ⟨fun h => hx ⟨k, hk, .inl h⟩, fun h => hx ⟨k, hk, .inr h⟩⟩
  | ret => simp only [State.byteAt, State.after, State.restored_mem]
  | moveLitToReg | moveRegToReg | moveMemToReg | addRegReg | jmpNotEq | pop | hlt => rfl

end

/-! ## The invariant -/

theorem State.Inv.of_mem_eq {s t : State} (h : s.Inv) (hm : t.mem = s.mem)
    (hL : t.memSize = s.memSize) : t.Inv := by
  rwa [State.Inv, hm, hL]

/-- A byte written inside the array keeps the invariant. -/
theorem State.Inv.write {s : State} (h : s.Inv) {a : Nat} (ha : a < s.memSize) (b : Byte) :
    (s.withMem (s.mem.write a b)).Inv := by
  obtain ⟨hL, hwf, hin⟩ := h
  exact ⟨hL, Memory.wf_write a b hwf, Memory.within_write b ha hin⟩

theorem State.Inv.putWord {s : State} (h : s.Inv) {a : Word} (ha : s.backedWord a = true)
    (v : Word) : (s.putWord a v).Inv := by
  obtain ⟨hlo, hhi⟩ := State.backedWord_iff.mp ha
  exact (h.write (State.backed_iff.mp hlo) (hiByte v)).write (State.backed_iff.mp hhi) (loByte v)

theorem State.Inv.pushedWords {s : State} (h : s.Inv) {vs : List Word}
    (hb : ∀ k < vs.length, s.backedWord (wordsBelow (s.readReg .sp) k) = true) :
    (s.pushedWords vs).Inv := by
  induction vs generalizing s with
  | nil => exact h
  | cons v vs ih =>
    have hsp : s.backedWord (s.readReg .sp) = true := by
      simpa using hb 0 (Nat.succ_pos vs.length)
    refine ih ((h.putWord hsp v).of_mem_eq rfl rfl) fun k hk => ?_
    simpa [wordsBelow_succ] using hb (k + 1) (Nat.succ_lt_succ hk)

theorem State.saved_mem (s : State) : s.saved.mem = (s.pushedWords s.frameWords).mem := by
  simp only [State.saved, State.withFsc_mem, State.writeReg_mem]

/-- The stores of an instruction that completes are all backed, so they keep the invariant. -/
theorem State.Inv.after {s : State} (h : s.Inv) {i : Instr}
    (hb : ∀ a ∈ s.accesses i, s.backedWord a = true) : (s.after i).Inv := by
  cases i with
  | moveRegToMem r a => exact h.putWord (hb a (.head _)) _
  | pushLit | pushReg => exact (h.putWord (hb _ (.head _)) _).of_mem_eq rfl rfl
  | callLit | callReg =>
    have frame : ∀ k < s.frameWords.length, s.backedWord (wordsBelow (s.readReg .sp) k) = true :=
      fun k hk => hb _ (List.mem_map.mpr ⟨k, List.mem_range.mpr hk, rfl⟩)
    exact (h.pushedWords frame).of_mem_eq s.saved_mem (by simp)
  | ret => exact h.of_mem_eq s.restored_mem s.restored_memSize
  | moveLitToReg | moveRegToReg | moveMemToReg | addRegReg | jmpNotEq | pop | hlt =>
    exact h.of_mem_eq rfl rfl

/-! ## The statements over all instructions -/

/-- Settles O32: the state left is `State.after`, whose registers are known. -/
theorem onlyListedWritersChangeRegisters : Obligations.OnlyListedWritersChangeRegisters := by
  unfold Obligations.OnlyListedWritersChangeRegisters
  intro i s t r h hd hr
  obtain ⟨-, rfl⟩ := exec_eq_next_iff.mp h
  exact s.after_readReg i hd hr

/-- Settles O33: the state left is `State.after`, whose bytes are known. -/
theorem onlyStoredBytesChange : Obligations.OnlyStoredBytesChange := by
  unfold Obligations.OnlyStoredBytesChange
  intro i s t h x hx
  obtain ⟨-, rfl⟩ := exec_eq_next_iff.mp h
  exact s.after_byteAt i hx

end Sys2Proof.Machine
end

section
/-! PROOFS. The step of a running machine as the fetch of one instruction and its handler
(spec/40_fetch_decode.md R90, R95). -/

namespace Sys2Proof.Machine

open Sys2Proof.Claims

/-- The state after the fetch of `i`: IP past its bytes and nothing else changed. -/
def State.pastBytes (s : State) (i : Instr) : State :=
  s.writeReg .ip (s.readReg .ip + BitVec.ofNat 16 (instrLength i))

theorem fetchInstr_of_decode {s : State} {bs rest : List Byte} {i : Instr}
    (hbytes : s.holdsBytes (s.readReg .ip) bs = true) (hd : decode bs = .ok (i, rest)) :
    fetchInstr s = .ok (i, s.pastBytes i) := by
  have hfetch := readsAlike_fetchInstr s bs hbytes
  rw [hd] at hfetch
  obtain ⟨n, hn, hok, -⟩ := hfetch
  obtain rfl : n = instrLength i := by
    rw [eq_encode_of_decode hd, List.length_append, length_encode] at hn
    omega
  exact hok

theorem step_of_holdsBytes {s : State} {i : Instr} (hrun : s.status = .running)
    (hbytes : s.holdsBytes (s.readReg .ip) (encode i) = true) :
    step s = exec i (s.pastBytes i) :=
  step_of_fetchInstr_ok hrun (fetchInstr_of_decode hbytes (by simpa using decode_encode i []))

/-- A step that completes has run the instruction whose bytes stand at IP. -/
theorem of_step_next {s t : State} (hrun : s.status = .running) (h : step s = .next t) :
    ∃ i, s.holdsBytes (s.readReg .ip) (encode i) = true ∧
      (∀ a ∈ (s.pastBytes i).accesses i, (s.pastBytes i).backedWord a = true) ∧
      t = (s.pastBytes i).after i := by
  cases hf : fetchInstr s with
  | error f =>
    rw [step_of_fetchInstr_error hrun hf] at h
    contradiction
  | ok p =>
    obtain ⟨hbytes, -⟩ := fetchInstr_eq_ok hf
    rw [step_of_holdsBytes hrun hbytes] at h
    exact ⟨p.1, hbytes, exec_eq_next_iff.mp h⟩

/-- A step that answers a next state found the machine halted and left it alone, or running. -/
theorem step_next_cases {s t : State} (h : step s = .next t) :
    (s.status = .halted ∧ t = s) ∨ s.status = .running := by
  cases hst : s.status with
  | running => exact .inr rfl
  | halted => simp_all [step]
  | faulted f => simp_all [step]

theorem step_of_halted {s : State} (h : s.status = .halted) : step s = .next s := by
  simp only [step, h]

theorem step_of_faulted {s : State} {f : Fault} (h : s.status = .faulted f) :
    step s = .fault f := by
  simp only [step, h]

/-- Settles O20: the fetch reads the bytes as the decoder does. -/
theorem stepRunsDecodedInstruction : Obligations.StepRunsDecodedInstruction := by
  unfold Obligations.StepRunsDecodedInstruction
  intro s bs rest i hrun hbytes hd
  exact step_of_fetchInstr_ok hrun (fetchInstr_of_decode hbytes hd)

/-- Settles O21: where the decoder rejects the bytes at IP, the fetch rejects them alike. -/
theorem stepFaultsInFetchOrder : Obligations.StepFaultsInFetchOrder := by
  unfold Obligations.StepFaultsInFetchOrder
  intro s bs hrun hbytes
  have hfetch := readsAlike_fetchInstr s bs hbytes
  refine ⟨fun op hd => ?_, fun b hd => ?_,
    fun hd hend => boundsFaultAfter_of_decode hd s hrun hbytes hend⟩
  · rw [hd] at hfetch
    exact step_of_fetchInstr_error hrun hfetch
  · rw [hd] at hfetch
    exact step_of_fetchInstr_error hrun hfetch

/-- Settles O24: the step runs the instruction, and its handler leaves IP as listed. -/
theorem stepLeavesIpAsListed : Obligations.StepLeavesIpAsListed := by
  unfold Obligations.StepLeavesIpAsListed
  intro s t i hrun hbytes h
  rw [step_of_holdsBytes hrun hbytes] at h
  obtain ⟨-, rfl⟩ := exec_eq_next_iff.mp h
  exact State.after_ip _ i

/-- Settles O26: a step answers what its status, its fetch or a handler answers, and none of these
is a refusal. -/
theorem nothingIsRefused : Obligations.NothingIsRefused := by
  unfold Obligations.NothingIsRefused
  refine fun s r => ⟨?_, fun i => exec_ne_refused i s r⟩
  cases hst : s.status with
  | halted => simp [step_of_halted hst]
  | faulted f => simp [step_of_faulted hst]
  | running =>
    cases hf : fetchInstr s with
    | error f => simp [step_of_fetchInstr_error hst hf]
    | ok p =>
      rw [step_of_fetchInstr_ok hst hf]
      exact exec_ne_refused p.1 p.2 r

/-- Only Hlt has the opcode byte 0xFF (spec/30_encoding.md R75). -/
theorem opcodeByte_eq_hlt_iff (i : Instr) : opcodeByte i.opcode = 0xFF#8 ↔ i = .hlt := by
  cases i <;> simp [Instr.opcode, opcodeByte]

theorem byteAt_ip_of_holdsBytes {s : State} {i : Instr}
    (h : s.holdsBytes (s.readReg .ip) (encode i) = true) :
    s.byteAt (s.readReg .ip) = opcodeByte i.opcode := by
  rw [encode_eq_cons] at h
  simp only [State.holdsBytes, Bool.and_eq_true, beq_iff_eq] at h
  exact h.1.2

/-- Settles O27: the byte at IP is the opcode byte of the instruction run, and only Hlt writes the
status. -/
theorem onlyHltHalts : Obligations.OnlyHltHalts := by
  unfold Obligations.OnlyHltHalts
  intro s t hrun h
  obtain ⟨i, hbytes, -, rfl⟩ := of_step_next hrun h
  rw [byteAt_ip_of_holdsBytes hbytes, ne_eq, opcodeByte_eq_hlt_iff, State.after_status]
  exact ⟨fun hi => if_pos hi, fun hi => (if_neg hi).trans hrun⟩

/-- Settles O30: a halted machine stays as it is; a running one completes its instruction with every
access backed, which keeps the invariant. -/
theorem stepKeepsInvariant : Obligations.StepKeepsInvariant := by
  unfold Obligations.StepKeepsInvariant
  intro s t hinv h
  obtain ⟨-, rfl⟩ | hrun := step_next_cases h
  · exact hinv
  · obtain ⟨i, -, hb, rfl⟩ := of_step_next hrun h
    have hpast : (s.pastBytes i).Inv := hinv.of_mem_eq rfl rfl
    exact hpast.after hb

theorem step_keeps_memSize {s t : State} (h : step s = .next t) : t.memSize = s.memSize := by
  obtain ⟨-, rfl⟩ | hrun := step_next_cases h
  · rfl
  · obtain ⟨i, -, -, rfl⟩ := of_step_next hrun h
    exact State.after_memSize _ i

end Sys2Proof.Machine
end

section
/-! PROOFS. The cause of every fault (spec/60_exceptions.md R201 to R203): a fetch faults at a byte
without memory or at an illegal byte, and a handler at a byte without memory. -/

namespace Sys2Proof.Machine

/-- The cause of a fault of fetching operands from IP on: an address without memory, or an illegal
register id at most `hi` bytes past IP. -/
def OperandFaultCause (s : State) (hi : Nat) : Fault → Prop
  | .boundsFault a => s.backed a = false
  | .invalidRegister b => legalRegisterId b = false ∧
      ∃ k ≤ hi, s.backed (s.readReg .ip + BitVec.ofNat 16 k) = true ∧
        s.byteAt (s.readReg .ip + BitVec.ofNat 16 k) = b
  | .invalidInstruction _ => False
  | .unimplemented _ => False

/-- The fetch faults only for such a cause. -/
def FaultsByCause {α : Type} (fetch : State → Except Fault (α × State)) (hi : Nat) : Prop :=
  ∀ s f, fetch s = .error f → OperandFaultCause s hi f

/-- A cause seen from `n` bytes further on. -/
theorem OperandFaultCause.of_advanced {s : State} {n hi hi' : Nat} {f : Fault}
    (h : OperandFaultCause (s.writeReg .ip (s.readReg .ip + BitVec.ofNat 16 n)) hi f)
    (hle : n + hi ≤ hi') : OperandFaultCause s hi' f := by
  cases f with
  | boundsFault a => exact h
  | invalidRegister b =>
    obtain ⟨hb, k, hk, h⟩ := h
    refine ⟨hb, n + k, by omega, ?_⟩
    simpa [BitVec.add_assoc, BitVec.ofNat_add_ofNat] using h
  | invalidInstruction | unimplemented => exact h.elim

theorem faultsByCause_fetch16 (hi : Nat) : FaultsByCause fetch16 hi := by
  intro s f h
  obtain ⟨hword, rfl⟩ := fetch16_eq_error.mp h
  exact State.wordFault_unbacked hword

theorem faultsByCause_fetchReg (hi : Nat) : FaultsByCause (fetchReg machineSource) hi := by
  intro s f h
  obtain hbyte | ⟨⟨b, t⟩, hbyte, hrest⟩ := bind_eq_error.mp h
  · obtain ⟨hip, rfl⟩ := fetch8_eq_error.mp hbyte
    exact hip
  · obtain ⟨hip, hb, -⟩ := fetch8_eq_ok.mp hbyte
    cases hid : legalRegisterId b with
    | true =>
      obtain ⟨r, hr⟩ := exists_regOfId_eq_some hid
      simp [hr] at hrest
    | false =>
      obtain rfl : .invalidRegister b = f := by
        simpa [regOfId_eq_none_of_illegal hid, machineSource] using hrest
      exact ⟨hid, 0, Nat.zero_le hi, by simpa using hip, by simpa using hb⟩

theorem FaultsByCause.value {α : Type} (x : α) (hi : Nat) :
    FaultsByCause (fun s => .ok (x, s)) hi :=
  nofun

/-- The second of two fetches starts where the first has moved IP to. -/
theorem FaultsByCause.bind {α β : Type} {fetch : State → Except Fault (α × State)}
    {fetch' : α → State → Except Fault (β × State)} {enc : α → List Byte} {n hi hi' : Nat}
    (h : FaultsByCause fetch hi') (henc : FetchesBytes fetch enc) (hn : ∀ x, (enc x).length = n)
    (h' : ∀ x, FaultsByCause (fetch' x) hi) (hle : n + hi ≤ hi') :
    FaultsByCause (fun s => fetch s >>= fun p => fetch' p.1 p.2) hi' := by
  intro s f hf
  obtain hfirst | ⟨⟨x, t⟩, hfirst, hsecond⟩ := bind_eq_error.mp hf
  · exact h s f hfirst
  · obtain ⟨-, rfl⟩ := henc s t x hfirst
    rw [hn x] at hsecond
    exact (h' x _ f hsecond).of_advanced hle

/-- Register-id fields are the first three operand bytes at most (spec/30_encoding.md R71). -/
theorem faultsByCause_fetchOperands (v : Opcode) :
    FaultsByCause (fetchOperands machineSource v) 2 := by
  have word {β : Type} {g : Word → State → Except Fault (β × State)}
      (hg : ∀ x, FaultsByCause (g x) 0) :=
    (faultsByCause_fetch16 2).bind fetchesBytes_fetch16 (n := 2) (fun _ => rfl) hg (by decide)
  have reg {β : Type} {g : Reg → State → Except Fault (β × State)}
      (hg : ∀ x, FaultsByCause (g x) 1) :=
    (faultsByCause_fetchReg 2).bind fetchesBytes_fetchReg (n := 1) (fun _ => rfl) hg (by decide)
  have lastWord {β : Type} {mk : Word → β} (hi : Nat) :
      FaultsByCause (fun s => fetch16 s >>= fun p => .ok (mk p.1, p.2)) hi :=
    fun s f h => faultsByCause_fetch16 hi s f (bind_ok_eq_error.mp h)
  have lastReg {β : Type} {mk : Reg → β} (hi : Nat) :
      FaultsByCause (fun s => fetchReg machineSource s >>= fun p => .ok (mk p.1, p.2)) hi :=
    fun s f h => faultsByCause_fetchReg hi s f (bind_ok_eq_error.mp h)
  cases v with
  | moveLitToReg | moveMemToReg => exact word fun _ => lastReg 0
  | moveRegToReg | addRegReg => exact reg fun _ => lastReg 1
  | moveRegToMem => exact reg fun _ => lastWord 1
  | jmpNotEq => exact word fun _ => lastWord 0
  | pushLit | callLit => exact lastWord 2
  | pushReg | pop | callReg => exact lastReg 2
  | ret | hlt => exact .value _ 2

/-- A fetch that faults does so at the opcode byte or in the operand fetches after it. -/
theorem fetchInstr_eq_error {s : State} {f : Fault} (h : fetchInstr s = .error f) :
    (s.backed (s.readReg .ip) = false ∧ f = .boundsFault (s.readReg .ip)) ∨
      (∃ op, f = .invalidInstruction op) ∨
      OperandFaultCause (s.writeReg .ip (s.readReg .ip + 1#16)) 2 f := by
  obtain hop | ⟨⟨op, t⟩, hop, hrest⟩ := bind_eq_error.mp h
  · exact .inl (fetch8_eq_error.mp hop)
  · obtain ⟨-, -, rfl⟩ := fetch8_eq_ok.mp hop
    cases hv : opcodeOfByte op with
    | none =>
      simp only [hv] at hrest
      exact .inr (.inl ⟨op, (Except.error.inj hrest).symm⟩)
    | some v =>
      simp only [hv] at hrest
      exact .inr (.inr (faultsByCause_fetchOperands v _ f hrest))

/-- A handler's fault is at an address without memory. -/
theorem exec_fault_unbacked {i : Instr} {s : State} {f : Fault} (h : exec i s = .fault f) :
    ∃ a, f = .boundsFault a ∧ s.backed a = false := by
  obtain ⟨k, hk, -, hb, hf⟩ := State.accessFault_eq_some_iff.mp (exec_eq_fault_iff.mp h)
  exact ⟨_, hf, State.wordFault_unbacked hb⟩

/-- Settles O25: a step faults in its opcode fetch, its opcode decode, its operand fetches or its
handler. -/
theorem stepFaultsHaveTheirCause : Obligations.StepFaultsHaveTheirCause := by
  unfold Obligations.StepFaultsHaveTheirCause
  intro s f hrun h
  cases hf : fetchInstr s with
  | ok p =>
    rw [step_of_fetchInstr_ok hrun hf] at h
    obtain ⟨-, hpast⟩ := fetchInstr_eq_ok hf
    obtain ⟨a, rfl, ha⟩ := exec_fault_unbacked h
    rw [hpast, State.writeReg_backed] at ha
    exact State.backed_eq_false_iff.mp ha
  | error f' =>
    rw [step_of_fetchInstr_error hrun hf] at h
    obtain rfl : f' = f := Host.Outcome.fault.inj h
    obtain ⟨hip, rfl⟩ | ⟨op, rfl⟩ | hcause := fetchInstr_eq_error hf
    · exact State.backed_eq_false_iff.mp hip
    · obtain ⟨hip, hbyte, hnone⟩ := fetchInstr_eq_invalidInstruction_iff.mp hf
      exact ⟨hip, hbyte, opcodeOfByte_eq_none_iff.mp hnone⟩
    · cases f' with
      | boundsFault a => exact State.backed_eq_false_iff.mp hcause
      | invalidRegister b =>
        obtain ⟨hb, k, hk, hbacked, hbyte⟩ := hcause
        have hpos : s.readReg .ip + 1#16 + BitVec.ofNat 16 k =
            s.readReg .ip + BitVec.ofNat 16 (1 + k) := by
          rw [BitVec.add_assoc, BitVec.ofNat_add_ofNat]
        rw [State.readReg_writeReg_same, hpos] at hbacked hbyte
        exact ⟨hb, 1 + k, by omega, by omega, hbacked, hbyte⟩
      | invalidInstruction | unimplemented => exact hcause.elim

end Sys2Proof.Machine
end

section
/-! PROOFS. Final statuses, faults and the driver (spec/46_halt.md R191; spec/60_exceptions.md R200,
R204; spec/70_reset_and_hazards.md R235, R236). -/

namespace Sys2Proof.Machine

theorem run_succ_of_step_next (M : Host.Core) {s t : M.State} (h : M.step s = .next t) (n : Nat) :
    M.run (n + 1) s = M.run n t := by
  rw [Host.Core.run, h]

theorem run_succ_of_step_fault (M : Host.Core) {s : M.State} {f : M.Fault}
    (h : M.step s = .fault f) (n : Nat) : M.run (n + 1) s = .fault f := by
  rw [Host.Core.run, h]

/-- Settles O28: a halted step answers the state it was given, a faulted one its fault. -/
theorem finalStatusesAreFinal : Obligations.FinalStatusesAreFinal := by
  unfold Obligations.FinalStatusesAreFinal
  intro s n
  refine ⟨fun hhalt => ?halted, fun f hfault => ?faulted⟩
  case halted =>
    induction n with
    | zero => rfl
    | succ n ih => exact (run_succ_of_step_next core (step_of_halted hhalt) n).trans ih
  case faulted => exact run_succ_of_step_fault core (step_of_faulted hfault) n

/-- Settles O47, each equation by evaluation. -/
theorem faultCodesAndInfo : Obligations.FaultCodesAndInfo :=
  fun _ _ => ⟨rfl, rfl, rfl, rfl, rfl, rfl, rfl, rfl⟩

theorem driverStep_of_next {s t : State} (any : Aftermath) (h : step s = .next t) :
    driverStep any s = .ok (if t.status = .halted then .halted else .continued, t) := by
  simp only [driverStep, h]

theorem driverStep_of_running_fault {s : State} {f : Fault} (any : Aftermath)
    (hrun : s.status = .running) (h : step s = .fault f) :
    driverStep any s = .ok (.fault f, takeFault f any s) := by
  simp only [driverStep, h, hrun]

theorem driverStep_of_faulted {s : State} {f : Fault} (any : Aftermath)
    (h : s.status = .faulted f) : driverStep any s = .ok (.fault f, s) := by
  simp only [driverStep, step_of_faulted h, h]

/-- Settles O48: a faulting step takes its fault, and in the status so left it is repeated. -/
theorem faultIsReportedAndKept : Obligations.FaultIsReportedAndKept := by
  unfold Obligations.FaultIsReportedAndKept
  intro any s f hrun h
  exact ⟨takeFault f any s, driverStep_of_running_fault any hrun h, rfl,
    fun any' => driverStep_of_faulted any' rfl⟩

/-- The state a driver's step leaves: the next one, the same one, or a fault's aftermath. -/
theorem driverStep_state {any : Aftermath} {s t : State} {r : StepResult}
    (h : driverStep any s = .ok (r, t)) :
    step s = .next t ∨ t = s ∨ ∃ f, t = takeFault f any s := by
  cases hstep : step s with
  | next u =>
    rw [driverStep_of_next any hstep] at h
    obtain ⟨-, rfl⟩ := Prod.mk.inj (Except.ok.inj h)
    exact .inl rfl
  | refused r => exact absurd hstep (nothingIsRefused s r).1
  | fault f =>
    cases hst : s.status with
    | running =>
      rw [driverStep_of_running_fault any hst hstep] at h
      obtain ⟨-, rfl⟩ := Prod.mk.inj (Except.ok.inj h)
      exact .inr (.inr ⟨f, rfl⟩)
    | faulted g =>
      rw [driverStep_of_faulted any hst] at h
      obtain ⟨-, rfl⟩ := Prod.mk.inj (Except.ok.inj h)
      exact .inr (.inl rfl)
    | halted => exact absurd ((step_of_halted hst).symm.trans hstep) nofun

/-- Settles O31: no handler and no aftermath of a fault changes the capacity. -/
theorem capacityIsFixed : Obligations.CapacityIsFixed := by
  unfold Obligations.CapacityIsFixed
  refine ⟨fun s t => step_keeps_memSize, fun any s t r h => ?_⟩
  obtain hnext | rfl | ⟨f, rfl⟩ := driverStep_state h
  · exact step_keeps_memSize hnext
  · rfl
  · rfl

/-- Settles O49, by induction on the smaller budget: both runs take the same next step. -/
theorem endedRunsStayEnded : Obligations.EndedRunsStayEnded := by
  unfold Obligations.EndedRunsStayEnded
  intro n
  induction n with
  | zero => exact fun m s hm => ⟨nofun, nofun⟩
  | succ n ih =>
    intro m s hm
    obtain ⟨m, rfl⟩ : ∃ k, m = k + 1 := ⟨m - 1, by omega⟩
    cases hstep : step s with
    | fault f => simp [drive, hstep]
    | refused r => simp [drive, hstep]
    | next u =>
      by_cases hu : u.status = .halted
      · simp only [drive, hstep, if_pos hu]
        refine ⟨?_, nofun⟩
        rintro t ⟨⟩
        exact ⟨rfl, hu⟩
      · simp only [drive, hstep, if_neg hu]
        exact ih m u (Nat.le_of_succ_le_succ hm)

end Sys2Proof.Machine
end

section
/-! PROOFS. The register file, the word accesses and the adder (spec/10_state.md R25;
spec/20_memory.md R55, R64; spec/42_alu.md R120, R122). -/

namespace Sys2Proof.Machine

/-- Settles O37: the three clauses are the laws of a register write. -/
theorem registerFileReadsBack : Obligations.RegisterFileReadsBack := by
  unfold Obligations.RegisterFileReadsBack
  intro s r r' v
  exact ⟨State.readReg_writeReg_same s r v, State.readReg_writeReg_ne s r r' v,
    onlyRegsChange_writeReg s r v⟩

/-- Settles O39: the write is `putWord`, which the word view reads back. -/
theorem wordRoundTrip : Obligations.WordRoundTrip := by
  unfold Obligations.WordRoundTrip
  intro a v s ha
  have hback : (s.putWord a v).wordAt a = v := State.wordAt_putWord_same s a v
  exact ⟨s.putWord a v, memWrite16_eq_ok.mpr ⟨ha, rfl⟩,
    memRead16_eq_ok.mpr ⟨by rwa [State.putWord_backedWord], hback⟩, hback.symm⟩

/-- Settles O40: `fetch16` reads the word view of memory, in which the stored word stands. -/
theorem storeIsSeenByNextFetch : Obligations.StoreIsSeenByNextFetch := by
  unfold Obligations.StoreIsSeenByNextFetch
  intro r a s ha
  refine ⟨s.putWord a (s.readReg r), exec_of_backed_single rfl ha, fetch16_eq_ok.mpr ?_⟩
  rw [State.readReg_writeReg_same, State.writeReg_writeReg_same]
  exact ⟨ha, State.wordAt_putWord_same s a _, rfl⟩

theorem toNat_add16 (a b : Word) : (add16 a b).toNat = (a.toNat + b.toNat) % 65536 :=
  BitVec.toNat_add a b

/-- Settles O41: the laws are those of addition modulo 65536. -/
theorem aluLaws : Obligations.AluLaws := by
  unfold Obligations.AluLaws
  intro a b c
  refine ⟨toNat_add16 a b, eq16_iff, BitVec.add_comm a b, BitVec.add_assoc a b c,
    BitVec.add_zero a, ?carry⟩
  case carry =>
    have ha := a.isLt
    have hb := b.isLt
    rw [toNat_add16]
    omega

end Sys2Proof.Machine
end

section
/-! PROOFS. Construction and the host's writes (spec/70_reset_and_hazards.md R230, R234). -/

namespace Sys2Proof.Machine

open Sys2Proof.Claims

theorem State.constructed_inv {L : Nat} (hL : 2 ≤ L ∧ L ≤ 65536) : (State.constructed L).Inv :=
  ⟨legalCapacity_iff.mpr hL, State.constructed_mem_wf L⟩

/-- Settles O29: a constructed memory is empty. -/
theorem constructedMachinesMeetInvariant : Obligations.ConstructedMachinesMeetInvariant := by
  unfold Obligations.ConstructedMachinesMeetInvariant
  refine ⟨State.constructed_inv (by decide), fun L s h => ?_⟩
  obtain ⟨hL, rfl⟩ := State.construct_eq_ok.mp h
  exact State.constructed_inv hL

/-- Settles O36: construction answers with the constructed machine. -/
theorem constructionSetsAllButRegisters : Obligations.ConstructionSetsAllButRegisters := by
  unfold Obligations.ConstructionSetsAllButRegisters
  refine ⟨fun L => ⟨?_, fun hL => ⟨_, State.construct_eq_ok.mpr ⟨hL, rfl⟩⟩⟩,
    State.construct_eq_ok.mpr ⟨by decide, rfl⟩, fun L s h => ?_⟩
  · rintro ⟨s, h⟩
    exact (State.construct_eq_ok.mp h).1
  · obtain ⟨-, rfl⟩ := State.construct_eq_ok.mp h
    exact ⟨rfl, rfl, rfl, fun _ => rfl⟩

theorem hostWriteByte_of_lt {a : Nat} {s : State} (h : a < s.memSize) (b : Byte) :
    hostWriteByte a b s = .ok (s.withMem (s.mem.write a b)) :=
  if_pos h

theorem hostWriteByte_of_le {a : Nat} {s : State} (h : s.memSize ≤ a) (b : Byte) :
    hostWriteByte a b s = .error (.hostWriteOutOfRange a) :=
  if_neg (Nat.not_lt.mpr h)

/-- Settles O50: a host's byte is one write of memory, a host's register one register write. -/
theorem hostWritesMakeLaunchStates : Obligations.HostWritesMakeLaunchStates := by
  unfold Obligations.HostWritesMakeLaunchStates
  intro s a b r v
  refine ⟨fun ha => hostWriteByte_of_le ha b, fun ha => ?byte,
    State.readReg_writeReg_same s r v, sameRegsExcept_writeReg s r v,
    onlyRegsChange_writeReg s r v, fun hinv => hinv.of_mem_eq rfl rfl⟩
  case byte =>
    refine ⟨_, hostWriteByte_of_lt ha b, ?_, fun x hx => ?_, fun _ _ => rfl, rfl, ⟨rfl, rfl⟩,
      fun hinv => hinv.write ha b⟩
    · rw [State.withMem_mem, Memory.read_write, if_pos rfl]
    · rw [State.withMem_mem, Memory.read_write, if_neg hx]

end Sys2Proof.Machine
end

section
/-! PROOFS. Words pushed and popped again, and the stack of a fresh machine (spec/44_stack.md R143,
R147; spec/45_call_return.md R172). -/

namespace Sys2Proof.Machine

open Sys2Proof.Claims

theorem wordsAbove_wordsBelow_same (a : Word) (n : Nat) : wordsAbove (wordsBelow a n) n = a := by
  rw [wordsAbove_wordsBelow a le_rfl, Nat.sub_self, wordsBelow_zero]

theorem wordsBelow_wordsAbove_same (a : Word) (n : Nat) : wordsBelow (wordsAbove a n) n = a :=
  BitVec.add_sub_cancel a (BitVec.ofNat 16 (2 * n))

/-- Going up from where the pushes ended, one meets the pushed words from the last to the first. -/
theorem State.pushedWords_reverse (s : State) {vs : List Word} (hl : vs.length ≤ 32768) :
    ((List.range vs.length).map fun k =>
      (s.pushedWords vs).wordAt (wordsAbove ((s.pushedWords vs).readReg .sp) (k + 1))) =
        vs.reverse := by
  apply List.ext_getElem (by simp)
  intro k hk _
  have hk : k < vs.length := by simpa using hk
  rw [List.getElem_map, List.getElem_range, State.pushedWords_sp, wordsAbove_wordsBelow _ hk,
    State.pushedWords_wordAt_pushed s vs hl _ (by omega), List.getElem_reverse]
  congr 1
  omega

/-- Settles O42: the pops read the pushed words from the last up, and move SP and the counter back
by as much as the pushes moved them. -/
theorem pushPopRoundTrip : Obligations.PushPopRoundTrip := by
  unfold Obligations.PushPopRoundTrip
  intro vs s t hl h
  obtain ⟨hb, rfl⟩ := pushWords_eq_ok.mp h
  refine ⟨(s.pushedWords vs).poppedWords vs.length,
    popWords_eq_ok.mpr ⟨fun k hk => ?backed, (s.pushedWords_reverse hl).symm, rfl⟩, ?sp, ?fsc,
    fun r _ => ?regs, ?control, rfl⟩
  case backed =>
    rw [State.pushedWords_sp, State.pushedWords_backedWord, wordsAbove_wordsBelow _ hk]
    exact hb _ (by omega)
  case sp => rw [State.poppedWords_sp, State.pushedWords_sp, wordsAbove_wordsBelow_same]
  case fsc => rw [State.poppedWords_fsc, State.pushedWords_fsc, wordsBelow_wordsAbove_same]
  case regs =>
    by_cases hr : r = .sp
    · rw [hr, State.poppedWords_sp, State.pushedWords_sp, wordsAbove_wordsBelow_same]
    · rw [State.poppedWords_readReg _ _ _ hr, State.pushedWords_readReg _ _ _ hr]
  case control => exact ⟨by simp, by simp⟩

/-- On a fresh machine the word above SP, and above FP, begins at the capacity. -/
theorem stackTop_add_two {L : Nat} (hL : 2 ≤ L) :
    BitVec.ofNat 16 (L - 2) + 2#16 = BitVec.ofNat 16 L := by
  rw [BitVec.ofNat_add_ofNat, Nat.sub_add_cancel hL]

/-- Settles O46: the first access of Ret and of Pop is the word at the capacity. -/
theorem emptyStackFaultsAtCapacity : Obligations.EmptyStackFaultsAtCapacity := by
  unfold Obligations.EmptyStackFaultsAtCapacity
  intro L s m r hs hL
  obtain ⟨⟨hmin, -⟩, rfl⟩ := State.construct_eq_ok.mp hs
  have hunbacked : ((State.constructed L).withMem m).backed (BitVec.ofNat 16 L) = false := by
    rw [State.backed_eq_false_iff, BitVec.toNat_ofNat, Nat.mod_eq_of_lt (by omega)]
    exact le_rfl
  have hsp : ((State.constructed L).withMem m).readReg .sp + 2#16 = BitVec.ofNat 16 L :=
    stackTop_add_two hmin
  have hfp : ((State.constructed L).withMem m).readReg .fp + 2#16 = BitVec.ofNat 16 L :=
    stackTop_add_two hmin
  constructor
  · have h := wordBoundsFault_exec_range (i := .ret) (s := (State.constructed L).withMem m) rfl
      (k := 0) (by omega) nofun
    rw [← wordsAbove_one, hfp] at h
    exact h.1 hunbacked
  · have h := wordBoundsFault_exec_single (i := .pop r) (s := (State.constructed L).withMem m) rfl
    rw [hsp] at h
    exact h.1 hunbacked

end Sys2Proof.Machine
end

section
/-! PROOFS. A call and its return (spec/45_call_return.md R166, R173). -/

namespace Sys2Proof.Machine

open Sys2Proof.Claims

/-- A call that completes saved the frame, in memory that backs all of it. -/
theorem of_exec_call_next {s t : State}
    (h : (∃ target, exec (.callLit target) s = .next t) ∨ ∃ r, exec (.callReg r) s = .next t) :
    (∀ k < 10, s.backedWord (wordsBelow (s.readReg .sp) k) = true) ∧
      ∃ target, t = s.saved.writeReg .ip target := by
  obtain ⟨target, h⟩ | ⟨r, h⟩ := h
  · obtain ⟨hb, rfl⟩ := exec_eq_next_iff.mp h
    exact ⟨by simpa [State.accesses] using hb, target, rfl⟩
  · obtain ⟨hb, rfl⟩ := exec_eq_next_iff.mp h
    exact ⟨by simpa [State.accesses] using hb, s.readReg r, rfl⟩

theorem wordsAbove_wordsBelow_of_le (a : Word) {j k : Nat} (h : k ≤ j) :
    wordsAbove (wordsBelow a k) j = wordsAbove a (j - k) := by
  rw [← Nat.add_sub_cancel' h, ← wordsAbove_add, wordsAbove_wordsBelow_same,
    Nat.add_sub_cancel_left]

theorem wordsAbove_one_add (a : Word) (k : Nat) :
    wordsAbove a (1 + k) = a + BitVec.ofNat 16 (2 + 2 * k) := by
  rw [wordsAbove, Nat.mul_add]

/-- What memory backs depends on the capacity alone. -/
theorem State.backedWord_of_memSize {s t : State} (h : t.memSize = s.memSize) (a : Word) :
    t.backedWord a = s.backedWord a := by
  simp only [State.backedWord, State.backed, h]

/-- State-save changes no word apart from its ten. -/
theorem State.saved_wordAt_apart (s : State) {x : Word}
    (h : ∀ k < 10, x ≠ wordsBelow (s.readReg .sp) k ∧ x ≠ wordsBelow (s.readReg .sp) k + 1#16 ∧
      x + 1#16 ≠ wordsBelow (s.readReg .sp) k) : s.saved.wordAt x = s.wordAt x := by
  simp only [State.saved, State.withFsc_wordAt, State.writeReg_wordAt]
  exact State.pushedWords_wordAt s _ x (by simpa using h)

/-- `u` has the frame that state-save made in `s`, and FP below it. -/
structure HoldsFrame (s u : State) : Prop where
  fp : u.readReg .fp = wordsBelow (s.readReg .sp) 10
  frame : ∀ (k : Nat) (hk : k < 10), u.wordAt (wordsBelow (s.readReg .sp) k) = s.frameWords[k]

namespace HoldsFrame
variable {s u : State} (h : HoldsFrame s u)
include h

/-- The `k`-th word a Ret pops, the first being 1, is the frame's `10 - k`-th. -/
theorem wordAt_popped {k : Nat} (hk : 0 < k) (hk' : k ≤ 10) :
    u.wordAt (wordsAbove (u.readReg .fp) k) = s.frameWords[10 - k]'(by simp; omega) := by
  rw [h.fp, wordsAbove_wordsBelow _ hk']
  exact h.frame (10 - k) (by omega)

theorem wordsAbove_fp {k : Nat} (hk : 10 ≤ k) :
    wordsAbove (u.readReg .fp) k = wordsAbove (s.readReg .sp) (k - 10) := by
  rw [h.fp, wordsAbove_wordsBelow_of_le _ hk]

theorem argCount_eq : u.argCount = (u.wordAt (s.readReg .sp + 2#16)).toNat := by
  rw [State.argCount, h.wordsAbove_fp (by decide), wordsAbove_one]

/-- The counter a Ret leaves is the one before the call less the arguments discarded. -/
theorem restoredFsc_eq : u.restoredFsc = wordsBelow s.fsc u.argCount := by
  rw [State.restoredFsc, h.wordAt_popped (by decide) (by decide), ← wordsBelow_add]
  congr 1
  exact BitVec.add_sub_cancel s.fsc 20#16

theorem restored_ip_eq : u.restored.readReg .ip = s.readReg .ip := by
  rw [State.restored_ip, h.wordAt_popped (by decide) (by decide)]
  rfl

theorem restored_general_eq {r : Reg} (hr : r ∈ generalRegs) :
    u.restored.readReg r = s.readReg r := by
  obtain ⟨k, hk, rfl⟩ := List.getElem_of_mem hr
  have hk8 : k < 8 := hk
  refine (State.restored_general u k hk8).trans ((h.wordAt_popped (by omega) (by omega)).trans ?_)
  simp [State.frameWords, show 10 - (10 - k) = k by omega, List.getElem_append_left, hk]

/-- A Ret pops the ten words of the frame and the `n + 1` words above it. -/
theorem backedWord_popped {n : Nat}
    (hframe : ∀ k < 10, u.backedWord (wordsBelow (s.readReg .sp) k) = true)
    (hargs : ∀ j ≤ n, u.backedWord (s.readReg .sp + BitVec.ofNat 16 (2 + 2 * j)) = true) :
    ∀ a ∈ (List.range (11 + n)).map fun k => wordsAbove (u.readReg .fp) (k + 1),
      u.backedWord a = true := by
  intro a ha
  obtain ⟨k, hk, rfl⟩ := List.mem_map.mp ha
  have hk : k < 11 + n := List.mem_range.mp hk
  by_cases hk10 : k < 10
  · rw [h.fp, wordsAbove_wordsBelow _ hk10]
    exact hframe _ (by omega)
  · rw [h.wordsAbove_fp (by omega), show k + 1 - 10 = 1 + (k - 10) by omega, wordsAbove_one_add]
    exact hargs _ (by omega)

end HoldsFrame

/-- Settles O44: Ret pops the frame's words in reverse order, and the words above it. -/
theorem callReturnPair : Obligations.CallReturnPair := by
  unfold Obligations.CallReturnPair
  intro s t u hcall hfp hL hframe n hn hargs
  obtain ⟨hb, target, rfl⟩ := of_exec_call_next hcall
  have hu : HoldsFrame s u := by
    refine ⟨hfp.trans ?_, fun k hk => (hframe k hk).trans (s.saved_wordAt k hk)⟩
    exact (State.readReg_writeReg_ne _ _ _ _ (by decide)).trans s.saved_fp
  have hcount : u.argCount = n := hu.argCount_eq.trans hn
  have haccess : ∀ a ∈ u.accesses .ret, u.backedWord a = true := by
    have hframe := fun k hk =>
      (State.backedWord_of_memSize (hL.trans s.saved_memSize) _).trans (hb k hk)
    rw [State.accesses, hcount]
    exact hu.backedWord_popped hframe hargs
  refine ⟨u.restored, exec_of_backed haccess, fun r hr => hu.restored_general_eq hr,
    hu.restored_ip_eq, ?sp, ?fsc, ?fp, u.restored_acc, u.restored_mem, u.restored_status,
    u.restored_memSize⟩
  case sp =>
    rw [State.restored_sp, hu.wordsAbove_fp (by omega), hcount, show 11 + n - 10 = 1 + n by omega,
      wordsAbove_one_add]
  case fsc => rw [State.restored_fsc, hu.restoredFsc_eq, hcount]; rfl
  case fp => rw [State.restored_fp, hu.restoredFsc_eq, hcount, hu.fp]; rfl

/-- A word pushed before a call still stands after state-save, if fewer than 32768 words lie between
its place and the end of the frame. -/
theorem State.saved_wordAt_pushed (s : State) {vs : List Word} (hl : vs.length + 10 ≤ 32768)
    {k : Nat} (hk : k < vs.length) :
    (s.pushedWords vs).saved.wordAt (wordsBelow (s.readReg .sp) k) = vs[k] := by
  rw [State.saved_wordAt_apart, State.pushedWords_wordAt_pushed s vs (by omega) k hk]
  intro j hj
  rw [State.pushedWords_sp, wordsBelow_add]
  exact wordsBelow_apart (by omega) (by omega) (by omega)

/-- Settles O45: the return is that of O44, the word above the frame being the count pushed last and
the arguments lying above it. -/
theorem argumentDiscard : Obligations.ArgumentDiscard := by
  unfold Obligations.ArgumentDiscard
  intro args target s s1 s2 hl hpush hcall
  obtain ⟨hb, hs1⟩ := pushWords_eq_ok.mp hpush
  have hs2 : s2 = s1.saved.writeReg .ip target := (exec_eq_next_iff.mp hcall).2
  have hlen : (args ++ [BitVec.ofNat 16 args.length]).length = args.length + 1 := by simp
  have hsp : s1.readReg .sp = wordsBelow (s.readReg .sp) (args.length + 1) := by
    rw [hs1, State.pushedWords_sp, hlen]
  have hcount : (s2.wordAt (s1.readReg .sp + 2#16)).toNat = args.length := by
    rw [hsp, wordsAbove_one, wordsAbove_wordsBelow _ (by omega), Nat.add_sub_cancel, hs2, hs1,
      State.writeReg_wordAt, State.saved_wordAt_pushed s (by omega) (by omega),
      List.getElem_concat_length rfl, BitVec.toNat_ofNat, Nat.mod_eq_of_lt (by omega)]
  have hargs : ∀ j ≤ args.length,
      s2.backedWord (s1.readReg .sp + BitVec.ofNat 16 (2 + 2 * j)) = true := by
    intro j hj
    rw [hsp, ← wordsAbove_one_add, wordsAbove_wordsBelow _ (by omega),
      State.backedWord_of_memSize (s := s) (by simp [hs2, hs1])]
    exact hb _ (by omega)
  obtain ⟨v, hret, hregs, hip, hvsp, -⟩ := callReturnPair s1 s2
    (s2.writeReg .ip (s2.readReg .ip + 1#16)) (.inl ⟨target, hcall⟩)
    (State.readReg_writeReg_ne _ _ _ _ (by decide)) rfl (fun _ _ => rfl) _ hcount hargs
  refine ⟨v, hret, ?sp, hip, fun r hr => ?regs⟩
  case sp => rw [hvsp, hsp, ← wordsAbove_one_add, Nat.add_comm 1, wordsAbove_wordsBelow_same]
  case regs =>
    have hne : r ≠ .sp := by
      rintro rfl
      exact absurd hr (by decide)
    rw [hregs r hr, hs1, State.pushedWords_readReg _ _ _ hne]

end Sys2Proof.Machine
end

section
/-! PROOFS. What SP and the counter have no effect on (spec/10_state.md R35; spec/45_call_return.md
R163): a Ret sees neither, and any other instruction sees the counter only in the word a call
saves. -/

namespace Sys2Proof.Machine

open Sys2Proof.Claims

/-- State-restore reads FP and memory alone, and overwrites SP and the counter. -/
theorem State.restored_writeReg_sp_withFsc (s : State) (p c : Word) :
    ((s.writeReg .sp p).withFsc c).restored = s.restored := rfl

theorem State.restored_withFsc (s : State) (c : Word) : (s.withFsc c).restored = s.restored := by
  simpa using s.restored_writeReg_sp_withFsc (s.readReg .sp) c

/-- Settles O43: Ret accesses the words above FP, and leaves the restored state. -/
theorem retIgnoresSpAndCounter : Obligations.RetIgnoresSpAndCounter := by
  unfold Obligations.RetIgnoresSpAndCounter
  intro s p c
  cases h : exec .ret s with
  | next t =>
    obtain ⟨hb, rfl⟩ := exec_eq_next_iff.mp h
    exact exec_eq_next_iff.mpr ⟨hb, (s.restored_writeReg_sp_withFsc p c).symm⟩
  | fault f =>
    have hf := exec_eq_fault_iff.mp h
    exact exec_eq_fault_iff.mpr hf
  | refused r => exact absurd h (exec_ne_refused .ret s r)

/-! ## The counter word of a frame -/

section
variable (s : State)

/-- The words of a frame that are registers, in the order pushed. -/
def State.frameRegs : List Word := generalRegs.map s.readReg ++ [s.readReg .ip]

/-- The counter's word is pushed last. -/
theorem State.frameWords_eq : s.frameWords = s.frameRegs ++ [s.fsc + 20#16] := rfl

theorem State.pushedWords_concat (vs : List Word) (w : Word) :
    s.pushedWords (vs ++ [w]) = (s.pushedWords vs).pushed w := by
  induction vs generalizing s with
  | nil => rfl
  | cons v vs ih => exact ih (s.pushed v)

/-- Apart from the counter's word, memory after state-save is that after the nine register
pushes. -/
theorem State.saved_byteAt_eq {x : Word} (h0 : x ≠ framePlace s 9)
    (h1 : x ≠ framePlace s 9 + 1#16) : s.saved.byteAt x = (s.pushedWords s.frameRegs).byteAt x := by
  have hsp : (s.pushedWords s.frameRegs).readReg .sp = framePlace s 9 := State.pushedWords_sp _ _
  rw [State.byteAt, State.saved_mem, State.frameWords_eq, State.pushedWords_concat,
    State.pushed_mem, hsp]
  exact (storedWord_putWord _ _ _).2.2 x h0 h1

end

/-- Where pushes store, and what, depends on SP alone. -/
theorem State.pushedWords_mem_congr {s t : State} (hm : s.mem = t.mem)
    (hsp : s.readReg .sp = t.readReg .sp) (vs : List Word) :
    (s.pushedWords vs).mem = (t.pushedWords vs).mem := by
  induction vs generalizing s t with
  | nil => exact hm
  | cons v vs ih =>
    refine ih ?_ ?_
    · rw [State.pushed_mem, State.pushed_mem, State.putWord, State.putWord, hm, hsp]
      rfl
    · rw [State.pushed_sp, State.pushed_sp, hsp]

/-- The frames that two machines save differ in the counter's word alone. -/
theorem State.saved_withFsc_byteAt (s : State) (c : Word) {x : Word} (h0 : x ≠ framePlace s 9)
    (h1 : x ≠ framePlace s 9 + 1#16) : (s.withFsc c).saved.byteAt x = s.saved.byteAt x := by
  have hmem := State.pushedWords_mem_congr (s := s.withFsc c) (t := s) rfl rfl s.frameRegs
  rw [(s.withFsc c).saved_byteAt_eq h0 h1, s.saved_byteAt_eq h0 h1]
  exact congrArg (fun m : Memory => m.read x.toNat) hmem

theorem State.after_call (s : State) {i : Instr}
    (h : i.opcode = .callLit ∨ i.opcode = .callReg) :
    ∃ target, s.after i = s.saved.writeReg .ip target := by
  cases i with
  | callLit target => exact ⟨target, rfl⟩
  | callReg r => exact ⟨s.readReg r, rfl⟩
  | moveLitToReg | moveRegToReg | moveRegToMem | moveMemToReg | addRegReg | jmpNotEq | pushLit
  | pushReg | pop | ret | hlt => simp [Instr.opcode] at h

/-! ## Two machines that differ in the counter -/

section
variable (i : Instr) (s : State) (c : Word)

/-- No access depends on the counter. -/
theorem State.accesses_withFsc : (s.withFsc c).accesses i = s.accesses i := by
  cases i <;> rfl

theorem exec_withFsc_of_fault {f : Fault} (h : exec i s = .fault f) :
    exec i (s.withFsc c) = .fault f := by
  rw [exec_eq_fault_iff] at h ⊢
  rw [State.accesses_withFsc]
  exact h

theorem exec_withFsc_of_next {t : State} (h : exec i s = .next t) :
    exec i (s.withFsc c) = .next ((s.withFsc c).after i) := by
  obtain ⟨hb, -⟩ := exec_eq_next_iff.mp h
  exact exec_of_backed (by rw [State.accesses_withFsc]; exact hb)

theorem State.after_withFsc_readReg (r : Reg) :
    ((s.withFsc c).after i).readReg r = (s.after i).readReg r := by
  have hsaved : (s.withFsc c).saved.readReg r = s.saved.readReg r := by
    by_cases hsp : r = .sp
    · rw [hsp, State.saved_sp, State.saved_sp, State.withFsc_readReg]
    by_cases hfp : r = .fp
    · rw [hfp, State.saved_fp, State.saved_fp, State.withFsc_readReg]
    rw [State.saved_readReg _ _ hsp hfp, State.saved_readReg _ _ hsp hfp, State.withFsc_readReg]
  cases i with
  | callLit | callReg =>
    simp only [State.after, State.readReg_writeReg, State.withFsc_readReg, hsaved]
  | ret => rw [State.after, s.restored_withFsc c]; rfl
  | moveLitToReg | moveRegToReg | moveRegToMem | moveMemToReg | addRegReg | jmpNotEq | pushLit
  | pushReg | pop | hlt => rfl

theorem State.after_withFsc_mem (hl : i.opcode ≠ .callLit) (hr : i.opcode ≠ .callReg) :
    ((s.withFsc c).after i).mem = (s.after i).mem := by
  cases i with
  | callLit => exact absurd rfl hl
  | callReg => exact absurd rfl hr
  | ret => exact (State.restored_mem _).trans s.restored_mem.symm
  | moveLitToReg | moveRegToReg | moveRegToMem | moveMemToReg | addRegReg | jmpNotEq | pushLit
  | pushReg | pop | hlt => rfl

/-- What an instruction adds to the counter does not depend on its value. -/
theorem State.after_withFsc_fsc (hl : i.opcode ≠ .callLit) (hr : i.opcode ≠ .callReg)
    (ht : i.opcode ≠ .ret) : ((s.withFsc c).after i).fsc - (s.after i).fsc = c - s.fsc := by
  cases i with
  | callLit => exact absurd rfl hl
  | callReg => exact absurd rfl hr
  | ret => exact absurd rfl ht
  | pushLit | pushReg => exact add_sub_add_right_eq_sub c s.fsc 2#16
  | pop => exact sub_sub_sub_cancel_right c s.fsc 2#16
  | moveLitToReg | moveRegToReg | moveRegToMem | moveMemToReg | addRegReg | jmpNotEq | hlt => rfl

end

/-- Settles O34: the two machines access the same words, so they fault alike or both complete, and
what they leave compares field by field. -/
theorem counterIsSeenOnlyThroughFrames : Obligations.CounterIsSeenOnlyThroughFrames := by
  unfold Obligations.CounterIsSeenOnlyThroughFrames
  intro i s c
  refine ⟨fun f => exec_withFsc_of_fault i s c, ?ret, fun t h =>
    ⟨(s.withFsc c).after i, exec_withFsc_of_next i s c h, ?_⟩⟩
  case ret =>
    rintro rfl
    simpa using retIgnoresSpAndCounter s (s.readReg .sp) c
  obtain ⟨-, rfl⟩ := exec_eq_next_iff.mp h
  refine ⟨s.after_withFsc_readReg i c, ?_, ?_, s.after_withFsc_mem i c, s.after_withFsc_fsc i c,
    fun hcall => ?call⟩
  · rw [State.after_status, State.after_status, State.withFsc_status]
  · rw [State.after_memSize, State.after_memSize, State.withFsc_memSize]
  case call =>
    obtain ⟨target, ht⟩ := s.after_call hcall
    obtain ⟨target', hu⟩ := (s.withFsc c).after_call hcall
    rw [ht, hu]
    refine ⟨?_, fun x h0 h1 => s.saved_withFsc_byteAt c h0 h1⟩
    rw [State.writeReg_fsc, State.writeReg_fsc, State.saved_fsc, State.saved_fsc]

end Sys2Proof.Machine
end
